-- ==== Sys2Proof/Word.lean ====
section
/-! DEFINITION. The machine's word types: bytes, command words and 64-bit operands (spec rules R5, R6, R7). -/

namespace Sys2Proof

/-- A byte of a packet or a sketch register (R5 `REGW`, R27, R38). -/
abbrev Byte := BitVec 8

/-- The command word `CMD` (R5 `CMDW`, R70). -/
abbrev CmdWord := BitVec 32

/-- The operand `DATA` and the result `RDATA` (R5 `VALW`, R70). -/
abbrev Word := BitVec 64

end Sys2Proof
end

