-- ==== Sys2Proof/Syntax.lean ====
section
/-! DEFINITION. The commands of the block, one constructor per row of the opcode table (spec rule R76), with the operands
that R73 and R74 give each. -/

namespace Sys2Proof

/-- A command with its operands. A small operand (`A` or `B` field) is the unsigned number R73 makes of its field, kept as a
`Nat` because the rules compare and add it without wrapping; `WellFormed` says that it fits its 8-bit field. A `DATA` operand
has the width R74 says the command reads, so the bits a command ignores are gone after decoding (log entry 10). -/
inductive Instr where
  /-- `NOP` (R90). -/
  | nop
  /-- `RDSR a`: status register address (R91). -/
  | rdsr (a : Nat)
  /-- `SRST` (R92). -/
  | srst
  /-- `WOPEN` (R107). -/
  | wopen
  /-- `WBITS n, p, value`: `numBits`, `lsbPosition` (R100). -/
  | wbits (n p : Nat) (value : Word)
  /-- `WBIT bit` (R101). -/
  | wbit (bit : Bool)
  /-- `WV64 value` (R102). -/
  | wv64 (value : Word)
  /-- `WV32 value` (R103). -/
  | wv32 (value : BitVec 32)
  /-- `WALIGN` (R105). -/
  | walign
  /-- `WFLUSH` (R106). -/
  | wflush
  /-- `ROPEN` (R115); the packet is the environment's, not the command's. -/
  | ropen
  /-- `RBITS n` (R110). -/
  | rbits (n : Nat)
  /-- `RV64` (R112). -/
  | rv64
  /-- `RV32` (R113). -/
  | rv32
  /-- `RALIGN` (R114). -/
  | ralign
  /-- `POPCNT x` (R120). -/
  | popcnt (x : Word)
  /-- `CLZ x` (R121). -/
  | clz (x : Word)
  /-- `CTZ x` (R122). -/
  | ctz (x : Word)
  /-- `NLPO2 x`, read as a signed number (R123). -/
  | nlpo2 (x : BitVec 32)
  /-- `ISPOW2 x` (R124). -/
  | ispow2 (x : Word)
  /-- `BSWAP32 x` (R125). -/
  | bswap32 (x : BitVec 32)
  /-- `BSWAP64 x` (R126). -/
  | bswap64 (x : Word)
  /-- `HNEW s, b`: slot, `bValue` (R130). -/
  | hnew (s b : Nat)
  /-- `HGET s, idx`: slot, bucket index (R131). -/
  | hget (s : Nat) (idx : Word)
  /-- `HSET s, v, idx`: slot, register value, bucket index (R132). -/
  | hset (s : Nat) (v : Byte) (idx : Word)
  /-- `HRST s` (R133). -/
  | hrst (s : Nat)
  /-- `HAGG d, s`: destination slot, source slot (R134). -/
  | hagg (d s : Nat)
  deriving DecidableEq, Repr

/-- The commands without their operands: what an `OP` value names (R76). -/
inductive Op where
  | nop | rdsr | srst
  | wopen | wbits | wbit | wv64 | wv32 | walign | wflush
  | ropen | rbits | rv64 | rv32 | ralign
  | popcnt | clz | ctz | nlpo2 | ispow2 | bswap32 | bswap64
  | hnew | hget | hset | hrst | hagg
  deriving DecidableEq, Repr

/-- The four formats of a command word: which of the fields `A`, `B`, `C` it uses (R72). -/
inductive Format where
  | z | a | ab | ac
  deriving DecidableEq, Repr

/-- Why a command word is illegal (R77). -/
inductive DecodeError where
  /-- Its `OP` is none of the 27 values. -/
  | reservedOp
  /-- A field its format does not use is not 0. -/
  | fieldNotZero
  deriving DecidableEq, Repr

end Sys2Proof
end

