-- ==== Sys2Proof/WellFormed.lean ====
section
/-! DEFINITION. When a command can be encoded: each small operand fits its 8-bit field (spec rules R71, R73). An operand that
fits its field but is out of the command's legal range is well formed: it decodes and faults in its own rule (R78). -/

namespace Sys2Proof

/-- A number an 8-bit field of the command word can hold (R73: 0 to 255). -/
def fitsField (n : Nat) : Bool := n < 256

/-- Every small operand of the command fits its field. -/
def Instr.wellFormed : Instr → Bool
  | .nop => true
  | .rdsr a => fitsField a
  | .srst => true
  | .wopen => true
  | .wbits n p _ => fitsField n && fitsField p
  | .wbit _ => true
  | .wv64 _ => true
  | .wv32 _ => true
  | .walign => true
  | .wflush => true
  | .ropen => true
  | .rbits n => fitsField n
  | .rv64 => true
  | .rv32 => true
  | .ralign => true
  | .popcnt _ => true
  | .clz _ => true
  | .ctz _ => true
  | .nlpo2 _ => true
  | .ispow2 _ => true
  | .bswap32 _ => true
  | .bswap64 _ => true
  | .hnew s b => fitsField s && fitsField b
  | .hget s _ => fitsField s
  | .hset s _ _ => fitsField s
  | .hrst s => fitsField s
  | .hagg d s => fitsField d && fitsField s

end Sys2Proof
end

