-- ==== Sys2Proof/Decode.lean ====
section
/-! DEFINITION. Decoding and encoding of commands (spec rules R70 to R78, R80): the opcode map, the decoder, total on every
(`CMD`, `DATA`) pair and rejecting by name, and the encoder. -/

namespace Sys2Proof

/-- The `OP` value of each command (R76). -/
def Op.code : Op → BitVec 8
  | .nop => 0x00 | .rdsr => 0x01 | .srst => 0x02
  | .wopen => 0x10 | .wbits => 0x11 | .wbit => 0x12 | .wv64 => 0x13 | .wv32 => 0x14 | .walign => 0x15 | .wflush => 0x16
  | .ropen => 0x20 | .rbits => 0x21 | .rv64 => 0x23 | .rv32 => 0x24 | .ralign => 0x25
  | .popcnt => 0x30 | .clz => 0x31 | .ctz => 0x32 | .nlpo2 => 0x33 | .ispow2 => 0x34 | .bswap32 => 0x35 | .bswap64 => 0x36
  | .hnew => 0x40 | .hget => 0x41 | .hset => 0x42 | .hrst => 0x43 | .hagg => 0x44

/-- The format of each command (R76). -/
def Op.format : Op → Format
  | .nop => .z | .rdsr => .a | .srst => .z
  | .wopen => .z | .wbits => .ab | .wbit => .z | .wv64 => .z | .wv32 => .z | .walign => .z | .wflush => .z
  | .ropen => .z | .rbits => .a | .rv64 => .z | .rv32 => .z | .ralign => .z
  | .popcnt => .z | .clz => .z | .ctz => .z | .nlpo2 => .z | .ispow2 => .z | .bswap32 => .z | .bswap64 => .z
  | .hnew => .ab | .hget => .a | .hset => .ac | .hrst => .a | .hagg => .ab

/-- The fixed bits of a command word of each format (R72). -/
def Format.mask : Format → CmdWord
  | .z => 0xFFFFFFFF
  | .a => 0xFF00FFFF
  | .ab => 0xFF0000FF
  | .ac => 0xFF00FF00

/-- The value of the fixed bits: `OP` in the top byte, 0 elsewhere (R76, column `match`). -/
def Op.matchWord (o : Op) : CmdWord := o.code ++ (0 : BitVec 24)

/-- The 27 commands in the order of the table (R76). -/
def Op.all : List Op :=
  [.nop, .rdsr, .srst, .wopen, .wbits, .wbit, .wv64, .wv32, .walign, .wflush, .ropen, .rbits, .rv64, .rv32, .ralign,
   .popcnt, .clz, .ctz, .nlpo2, .ispow2, .bswap32, .bswap64, .hnew, .hget, .hset, .hrst, .hagg]

/-- The fields of a command word (R71). -/
def opField (cmd : CmdWord) : BitVec 8 := cmd.extractLsb' 24 8
def aField (cmd : CmdWord) : BitVec 8 := cmd.extractLsb' 16 8
def bField (cmd : CmdWord) : BitVec 8 := cmd.extractLsb' 8 8
def cField (cmd : CmdWord) : BitVec 8 := cmd.extractLsb' 0 8

/-- The command an `OP` value names, if it names one (R76, R77). -/
def opOf (code : BitVec 8) : Option Op := Op.all.find? (fun o => o.code == code)

/-- Operand assembly: the command with its operands taken from the fields `A`, `B`, `C` and from `DATA` (R73, R74). -/
def Op.build (o : Op) (a b c : BitVec 8) (data : Word) : Instr :=
  match o with
  | .nop => .nop
  | .rdsr => .rdsr a.toNat
  | .srst => .srst
  | .wopen => .wopen
  | .wbits => .wbits a.toNat b.toNat data
  | .wbit => .wbit (data.getLsbD 0)
  | .wv64 => .wv64 data
  | .wv32 => .wv32 (data.extractLsb' 0 32)
  | .walign => .walign
  | .wflush => .wflush
  | .ropen => .ropen
  | .rbits => .rbits a.toNat
  | .rv64 => .rv64
  | .rv32 => .rv32
  | .ralign => .ralign
  | .popcnt => .popcnt data
  | .clz => .clz data
  | .ctz => .ctz data
  | .nlpo2 => .nlpo2 (data.extractLsb' 0 32)
  | .ispow2 => .ispow2 data
  | .bswap32 => .bswap32 (data.extractLsb' 0 32)
  | .bswap64 => .bswap64 data
  | .hnew => .hnew a.toNat b.toNat
  | .hget => .hget a.toNat data
  | .hset => .hset a.toNat c data
  | .hrst => .hrst a.toNat
  | .hagg => .hagg a.toNat b.toNat

/-- The decoder (R77): total, one command or a named rejection for every pair (`CMD`, `DATA`). -/
def decode (cmd : CmdWord) (data : Word) : Except DecodeError Instr :=
  match opOf (opField cmd) with
  | none => .error .reservedOp
  | some o =>
    if cmd &&& o.format.mask = o.matchWord then .ok (o.build (aField cmd) (bField cmd) (cField cmd) data)
    else .error .fieldNotZero

/-- Which command of the map an instruction is. -/
def Instr.op : Instr → Op
  | .nop => .nop | .rdsr _ => .rdsr | .srst => .srst
  | .wopen => .wopen | .wbits _ _ _ => .wbits | .wbit _ => .wbit | .wv64 _ => .wv64 | .wv32 _ => .wv32
  | .walign => .walign | .wflush => .wflush
  | .ropen => .ropen | .rbits _ => .rbits | .rv64 => .rv64 | .rv32 => .rv32 | .ralign => .ralign
  | .popcnt _ => .popcnt | .clz _ => .clz | .ctz _ => .ctz | .nlpo2 _ => .nlpo2 | .ispow2 _ => .ispow2
  | .bswap32 _ => .bswap32 | .bswap64 _ => .bswap64
  | .hnew _ _ => .hnew | .hget _ _ => .hget | .hset _ _ _ => .hset | .hrst _ => .hrst | .hagg _ _ => .hagg

/-- A command word made of its four fields (R71). -/
def cmdWord (op a b c : BitVec 8) : CmdWord := op ++ a ++ b ++ c

/-- The small operands as field values, `A`, `B`, `C` (R73); a field the format does not use is 0 (R71). -/
def Instr.fields : Instr → BitVec 8 × BitVec 8 × BitVec 8
  | .rdsr a => (BitVec.ofNat 8 a, 0, 0)
  | .wbits n p _ => (BitVec.ofNat 8 n, BitVec.ofNat 8 p, 0)
  | .rbits n => (BitVec.ofNat 8 n, 0, 0)
  | .hnew s b => (BitVec.ofNat 8 s, BitVec.ofNat 8 b, 0)
  | .hget s _ => (BitVec.ofNat 8 s, 0, 0)
  | .hset s v _ => (BitVec.ofNat 8 s, 0, v)
  | .hrst s => (BitVec.ofNat 8 s, 0, 0)
  | .hagg d s => (BitVec.ofNat 8 d, BitVec.ofNat 8 s, 0)
  | .nop | .srst | .wopen | .wbit _ | .wv64 _ | .wv32 _ | .walign | .wflush | .ropen | .rv64 | .rv32 | .ralign
  | .popcnt _ | .clz _ | .ctz _ | .nlpo2 _ | .ispow2 _ | .bswap32 _ | .bswap64 _ => (0, 0, 0)

/-- The `DATA` operand, with 0 in the bits the command does not read (R74, R80). -/
def Instr.data : Instr → Word
  | .wbits _ _ value => value
  | .wbit bit => if bit then 1 else 0
  | .wv64 value => value
  | .wv32 value => value.zeroExtend 64
  | .popcnt x => x
  | .clz x => x
  | .ctz x => x
  | .nlpo2 x => x.zeroExtend 64
  | .ispow2 x => x
  | .bswap32 x => x.zeroExtend 64
  | .bswap64 x => x
  | .hget _ idx => idx
  | .hset _ _ idx => idx
  | .nop | .rdsr _ | .srst | .wopen | .walign | .wflush | .ropen | .rbits _ | .rv64 | .rv32 | .ralign
  | .hnew _ _ | .hrst _ | .hagg _ _ => 0

/-- The bits of `DATA` a command reads, as a mask (R74). -/
def Op.dataMask : Op → Word
  | .wbits | .wv64 | .popcnt | .clz | .ctz | .ispow2 | .bswap64 | .hget | .hset => 0xFFFFFFFFFFFFFFFF
  | .wbit => 1
  | .wv32 | .nlpo2 | .bswap32 => 0xFFFFFFFF
  | .nop | .rdsr | .srst | .wopen | .walign | .wflush | .ropen | .rbits | .rv64 | .rv32 | .ralign | .hnew | .hrst
  | .hagg => 0

/-- The encoder (R71, R76, R80): the pair (`CMD`, `DATA`) of a well-formed command. -/
def encode (i : Instr) : CmdWord × Word :=
  (cmdWord i.op.code i.fields.1 i.fields.2.1 i.fields.2.2, i.data)

/-- The low `nbits` bits of `w` as the host of this package numbers them: `CMD` in bits 31 to 0, and `DATA` counting on from
bit 32; the bits above `nbits` are 0. -/
def tableBits (nbits w : Nat) : CmdWord × Word :=
  (BitVec.ofNat 32 (w % 2 ^ nbits), BitVec.ofNat 64 (w % 2 ^ nbits / 2 ^ 32))

/-- The instruction the decoder reads from the word `w` of an opcode-table row. -/
def decodeTableWord (nbits w : Nat) : Option Instr :=
  match decode (tableBits nbits w).1 (tableBits nbits w).2 with
  | .ok i => some i
  | .error _ => none

end Sys2Proof
end

