-- ==== Sys2Proof/Config.lean ====
section
/-! DEFINITION. The parameters of the block (spec rule R5): what is fixed when it is built, and its constants. The spec
leaves no value of any instruction open, so this file holds no free value. -/

namespace Sys2Proof

/-- What a build of the block fixes (R5, R30, R36): the number of sketch slots, 4 unless said otherwise. A state carries it
as the length of its slot list, so that a claim about every state holds for every build (log entry 6). -/
structure Config where
  nsketch : Nat := 4
  deriving DecidableEq, Repr

/-- The build with the spec's default values. -/
def Config.standard : Config := {}

/-- The command set version `CFG` shows (R1, R35). -/
abbrev Config.version : Byte := 1

/-- Legal `numBits` of one field: `NBMIN` to `NBMAX` (R5). -/
abbrev Config.nbMin : Nat := 1
abbrev Config.nbMax : Nat := 64

/-- Most groups in a 64-bit and in a 32-bit varint (R5 `MAXG64`, `MAXG32`). -/
abbrev Config.maxG64 : Nat := 10
abbrev Config.maxG32 : Nat := 5

/-- Legal `bValue` of a sketch (R5 `BMIN`, `BMAX`). -/
abbrev Config.bMin : Nat := 4
abbrev Config.bMax : Nat := 14

/-- Packets are shorter than this many bytes (R38, R52). -/
abbrev Config.packetBound : Nat := 2 ^ 61

end Sys2Proof
end

