-- ==== Sys2Proof/Machine/State.lean ====
section
/-! DEFINITION. The state of the block as plain data (spec rules R22 to R39), the host interface around it (R171), the reasons
a step can stop, and the state after reset (R160). -/

namespace Sys2Proof.Machine

/-- Addressed bytes as (address, byte) pairs in one canonical form: addresses strictly rising, no zero byte listed. An
address that is not listed reads as 0 (log entry 7). Used for the registers of a sketch, addressed by bucket index (R53). -/
abbrev Memory := List Host.Cell

/-- The canonical form of a memory. -/
abbrev Memory.wf (m : Memory) : Prop :=
  m.Pairwise (fun c d => c.1 < d.1) ∧ ∀ c ∈ m, c.2 ≠ 0

/-- `WST`, the writer's life-cycle state (R22). -/
inductive WState where
  /-- `IDLE`: no instance exists. -/
  | idle
  /-- `OPEN`: an instance exists and accepts writes. -/
  | opened
  /-- `FLUSHED`: the instance has been flushed. -/
  | flushed
  /-- `FAULTED`: a write command violated a precondition. -/
  | faulted
  deriving DecidableEq, Repr

/-- `RST`, the reader's life-cycle state; the value 2 is never taken (R28). -/
inductive RState where
  | idle | opened | faulted
  deriving DecidableEq, Repr

/-- Writer unit W (R22 to R27). -/
structure Writer where
  wst : WState
  /-- Bytes emitted so far, modulo 2^64 (R26). -/
  wpos : BitVec 64
  /-- Bits placed in the partial byte, 0 to 7 (R23). -/
  wbit : BitVec 3
  /-- The partial byte, filled from bit 7 down (R24). -/
  wcur : Byte
  /-- The sink packet, `SNK[0]` first (R27). -/
  snk : List Byte
  /-- The packet has been ended by `WFLUSH` (R27). -/
  snkDone : Bool
  deriving DecidableEq, Repr

/-- Reader unit R (R28, R29, R38). `SLEN` is the length of `src`. -/
structure Reader where
  rst : RState
  /-- Index of the byte that holds the next unread bit, modulo 2^64 (R29). -/
  rpos : BitVec 64
  /-- Bits of that byte already consumed, 0 to 7 (R29). -/
  rbit : BitVec 3
  /-- That byte while `rbit` is not 0, else 0 (R29). -/
  rcur : Byte
  /-- The source packet, `SRC[0]` first (R38). -/
  src : List Byte
  deriving DecidableEq, Repr

/-- One sketch slot `H[s]` (R31, R32). -/
structure Sketch where
  valid : Bool
  /-- `bValue`, 4 to 14 while `valid` (R31). -/
  b : BitVec 4
  /-- `REG`, by bucket index (R32). -/
  reg : Memory
  deriving DecidableEq, Repr

/-- A response: `STATUS` and `RDATA` (R70, R75). -/
structure Response where
  status : BitVec 8
  rdata : BitVec 64
  deriving DecidableEq, Repr

/-- What the world outside can do next at a command boundary (R171). -/
inductive Input where
  /-- The host issues a command: `CMD` and `DATA` (R70). -/
  | command (cmd : CmdWord) (data : Word)
  /-- The environment presents a packet at the source port; the next `ROPEN` takes it (R52, R115; log entry 4). -/
  | packet (bytes : List Byte)
  /-- The host asserts the reset signal (R171). -/
  | reset
  deriving DecidableEq, Repr

/-- The whole state: the block's tuple of R39, then the host interface. -/
structure State where
  /-- Writer unit W. -/
  w : Writer
  /-- Reader unit R. -/
  r : Reader
  /-- Sketch store H, one entry a slot; its length is `NSKETCH` (R30; log entry 6). -/
  h : List Sketch
  /-- `FSR`, the sticky fault status register (R34). -/
  fsr : BitVec 8
  /-- `HSR.MM`, the sticky mismatch flag (R33). -/
  mm : Bool
  /-- The moves of the host and the environment still to come, next first (R171, R172; log entry 1). -/
  inputs : List Input
  /-- The packet the environment presents now (log entry 4). -/
  offer : List Byte
  /-- The last response handed to the host, none before the first command (log entry 3). -/
  resp : Option Response
  deriving DecidableEq, Repr

/-- The seven faults of the block, `STATUS` 1 to 7 (R140). They are outcomes of a command, hence next states (R144). -/
inductive FaultCode where
  | illegal | width | state | eos | varint | index | range
  deriving DecidableEq, Repr

/-- The unit a command belongs to (R76), which says what a fault spoils (R144). -/
inductive UnitClass where
  | system | writer | reader | primitive | sketch
  deriving DecidableEq, Repr

/-- Reasons for which the machine stops. No command raises one: every fault of the spec is a response (R142, R144). -/
inductive Fault where
  /-- Raised by a step in which the environment presents a packet of 2^61 bytes or more; the spec gives no move for it
  (R38, R52). Safe: the model stops where the spec says nothing (log entry 5). -/
  | packetTooLong
  deriving DecidableEq, Repr

/-- Reasons for which an instruction has no meaning. -/
inductive Refusal where
  /-- Raised by an arm of `exec` whose instruction has no meaning yet; no arm does. Safe: the model stops. -/
  | notModelled (mnemonic : String)
  deriving DecidableEq, Repr

/-- The outcome of a command or a step. -/
abbrev Result := Host.Outcome State Fault Refusal

/-- No writer instance (R160). -/
def Writer.reset : Writer :=
  { wst := .idle, wpos := 0, wbit := 0, wcur := 0, snk := [], snkDone := false }

/-- No reader instance (R160). -/
def Reader.reset : Reader :=
  { rst := .idle, rpos := 0, rbit := 0, rcur := 0, src := [] }

/-- No sketch (R160); the registers, which nothing can observe, hold 0 (R161; log entry 7). -/
def Sketch.reset : Sketch :=
  { valid := false, b := 0, reg := [] }

/-- The state right after reset of a build (R160), with no input pending, an empty packet presented and no response. -/
def State.resetFor (c : Config) : State :=
  { w := Writer.reset, r := Reader.reset, h := List.replicate c.nsketch Sketch.reset, fsr := 0, mm := false,
    inputs := [], offer := [], resp := none }

/-- The machine right after reset (R160), for the default build. -/
def State.reset : State := State.resetFor Config.standard

end Sys2Proof.Machine
end

