-- ==== Sys2Proof/Machine/Flags.lean ====
section
/-! DEFINITION. `STATUS` codes, the sticky flags (spec rules R33, R34, R140) and the status register map (R35). -/

namespace Sys2Proof.Machine

/-- The `STATUS` code of a fault (R140). -/
def FaultCode.code : FaultCode → BitVec 8
  | .illegal => 1
  | .width => 2
  | .state => 3
  | .eos => 4
  | .varint => 5
  | .index => 6
  | .range => 7

/-- `FSR` after a fault: bit `code` set, the others as they were (R34, R142). -/
def recordFault (c : FaultCode) (fsr : BitVec 8) : BitVec 8 := fsr ||| (1#8 <<< c.code.toNat)

/-- The value of `WST` (R22) and of `RST` (R28). -/
def WState.code : WState → BitVec 2
  | .idle => 0 | .opened => 1 | .flushed => 2 | .faulted => 3
def RState.code : RState → BitVec 2
  | .idle => 0 | .opened => 1 | .faulted => 3

/-- `NSKETCH`: the number of slots of the build (R5, R30; log entry 6). -/
def State.nsketch (s : State) : Nat := s.h.length

/-- The layouts of R35, most significant field first; bits not listed read 0. -/
def fsrValue (s : State) : Word := (s.fsr.extractLsb' 1 7 ++ 0#1).zeroExtend 64
def wsrValue (s : State) : Word :=
  (s.w.wcur ++ BitVec.ofBool s.w.snkDone ++ s.w.wbit ++ 0#2 ++ s.w.wst.code).zeroExtend 64
def rsrValue (s : State) : Word := (s.r.rcur ++ 0#1 ++ s.r.rbit ++ 0#2 ++ s.r.rst.code).zeroExtend 64
def hsrValue (s : State) : Word := (BitVec.ofBool s.mm).zeroExtend 64
def cfgValue (s : State) : Word := (Config.version ++ BitVec.ofNat 8 s.nsketch).zeroExtend 64
def hcfgValue (k : Sketch) : Word := (k.b ++ 0#3 ++ BitVec.ofBool k.valid).zeroExtend 64

/-- The status register map (R35): the value at an address, none where no register is. -/
def statusRegister (s : State) (a : Nat) : Option Word :=
  if a = 0x00 then some (fsrValue s)
  else if a = 0x01 then some (wsrValue s)
  else if a = 0x02 then some s.w.wpos
  else if a = 0x03 then some (rsrValue s)
  else if a = 0x04 then some s.r.rpos
  else if a = 0x05 then some (hsrValue s)
  else if a = 0x06 then some (cfgValue s)
  else if a < 0x10 then none
  else (s.h[a - 0x10]?).map hcfgValue

end Sys2Proof.Machine
end

