-- ==== Sys2Proof/Machine/Operands.lean ====
section
/-! DEFINITION. Functions on operand values: mask, shifts and slice (spec rules R9 to R11), varint bytes (R56, R102), and the
bit primitives (R120 to R126). They read no state. -/

namespace Sys2Proof.Machine

/-- `mask(n)`, the low `n` bits set; all 64 at `n = 64` (R9). -/
def mask (n : Nat) : Word := BitVec.ofNat 64 (2 ^ n - 1)

/-- `shr(v, k)`, logical, 0 at `k = 64` (R10). -/
def shr (v : Word) (k : Nat) : Word := v >>> k

/-- `slice(v, n, p)`, the `n` bits of `v` from bit `p` up (R11). -/
def slice (v : Word) (n p : Nat) : Word := shr v p &&& mask n

/-- The bytes of a varint, least significant group first, continuation flag in bit 7 (R102). The first argument bounds the
number of groups. -/
def varintBytes : Nat → Word → List Byte
  | 0, _ => []
  | k + 1, t =>
    let g : BitVec 7 := t.extractLsb' 0 7
    let t' := shr t 7
    if t' = 0 then [0#1 ++ g] else (1#1 ++ g) :: varintBytes k t'

/-- The varint of a 64-bit value: at most 10 groups (R102). -/
def varintEncode (v : Word) : List Byte := varintBytes Config.maxG64 v

/-- The low 7 bits of a varint byte, and its continuation flag (R56, R112). -/
def groupOf (byte : Byte) : BitVec 7 := byte.extractLsb' 0 7
def moreGroups (byte : Byte) : Bool := byte.getLsbD 7

/-- The indices of a 64-bit value's bits, 0 first. -/
def bitIndices : List Nat := List.range 64

/-- The number of ones (R120). -/
def popCount (x : Word) : Nat := (bitIndices.filter (fun i => x.getLsbD i)).length

/-- 63 less the highest index that holds a 1; 64 for 0 (R121). -/
def leadingZeros (x : Word) : Nat :=
  match bitIndices.reverse.find? (fun i => x.getLsbD i) with
  | none => 64
  | some i => 63 - i

/-- The lowest index that holds a 1; 64 for 0 (R122). -/
def trailingZeros (x : Word) : Nat :=
  match bitIndices.find? (fun i => x.getLsbD i) with
  | none => 64
  | some i => i

/-- The operands `NLPO2` answers: 0 to 2^30 - 1, read as signed (R123). -/
def nextPowerDefined (x : BitVec 32) : Bool := decide (0 ≤ x.toInt) && decide (x.toInt < 2 ^ 30)

/-- 2^k for the least k with 2^k > x (R123); x is below 2^30 where it is used, so one of the 31 exponents does. -/
def nextPower (x : BitVec 32) : Word :=
  match (List.range 31).find? (fun k => decide (x.toNat < 2 ^ k)) with
  | some k => BitVec.ofNat 64 (2 ^ k)
  | none => 0

/-- At most one bit set; true for 0 (R124). -/
def isPowerOfTwo (x : Word) : Bool := x &&& (x - 1) == 0

/-- The four bytes in reverse order (R125). -/
def byteSwap32 (x : BitVec 32) : BitVec 32 :=
  x.extractLsb' 0 8 ++ x.extractLsb' 8 8 ++ x.extractLsb' 16 8 ++ x.extractLsb' 24 8

/-- The eight bytes in reverse order (R126). -/
def byteSwap64 (x : Word) : Word :=
  x.extractLsb' 0 8 ++ x.extractLsb' 8 8 ++ x.extractLsb' 16 8 ++ x.extractLsb' 24 8 ++
    x.extractLsb' 32 8 ++ x.extractLsb' 40 8 ++ x.extractLsb' 48 8 ++ x.extractLsb' 56 8

/-- The larger of two bytes, compared unsigned (R12, R134). -/
def maxByte (x y : Byte) : Byte := if x.toNat < y.toNat then y else x

end Sys2Proof.Machine
end

