-- ==== Sys2Proof/Machine/Ops.lean ====
section
/-! DEFINITION. The named operations on the state: updates, responses, taking a fault (spec rule R144) and recovering from it
(R146), memory (R53), the writer's and the reader's bit path (R104, R111), varints (R102, R112), and reset (R160). -/

namespace Sys2Proof.Machine

/-! ## Updates of one field -/

def State.setW (s : State) (w : Writer) : State := { s with w := w }
def State.setR (s : State) (r : Reader) : State := { s with r := r }
def State.setH (s : State) (h : List Sketch) : State := { s with h := h }
def State.setFsr (s : State) (v : BitVec 8) : State := { s with fsr := v }
def State.setMm (s : State) (v : Bool) : State := { s with mm := v }
def State.setInputs (s : State) (l : List Input) : State := { s with inputs := l }
def State.setOffer (s : State) (p : List Byte) : State := { s with offer := p }
def State.setResp (s : State) (r : Option Response) : State := { s with resp := r }

/-- `H[i] <- k`: the other slots stay (R53). -/
def State.setSlot (s : State) (i : Nat) (k : Sketch) : State := s.setH (s.h.set i k)

/-! ## Responses and faults -/

/-- `respond(OK, rd)`: the command ends with success (R8, R75). -/
def respond (rd : Word) (s : State) : Result := .next (s.setResp (some ⟨0, rd⟩))

/-- The writer after a fault of a command of unit `u`: WIDTH spoils the instance (R144, R145). -/
def spoilWriter (u : UnitClass) (c : FaultCode) (w : Writer) : Writer :=
  if u = .writer ∧ c = .width then { w with wst := .faulted } else w

/-- The reader after a fault of a command of unit `u`: WIDTH, EOS and VARINT spoil the instance (R144, R145). -/
def spoilReader (u : UnitClass) (c : FaultCode) (r : Reader) : Reader :=
  if u = .reader ∧ (c = .width ∨ c = .eos ∨ c = .varint) then { r with rst := .faulted } else r

/-- Fault entry, the one operation every fault goes through (R144): the sticky bit, the unit's state field, the response;
nothing else. -/
def takeFault (u : UnitClass) (c : FaultCode) (s : State) : State :=
  { s with
    w := spoilWriter u c s.w
    r := spoilReader u c s.r
    fsr := recordFault c s.fsr
    resp := some ⟨c.code, 0⟩ }

/-- `raise`: the command ends with a fault (R8). -/
def raise (u : UnitClass) (c : FaultCode) (s : State) : Result := .next (takeFault u c s)

/-- What an illegal word does (R77): the fault ILLEGAL of no unit. -/
def illegalWord (s : State) : Result := raise .system .illegal s

/-- Recovery, the counterpart of a trap return (R146): a new writer instance at position 0 (R107). -/
def openWriter : Writer := { Writer.reset with wst := .opened }

/-- Recovery of the reader (R146): a new instance at position 0 on the packet `p` (R115). -/
def openReader (p : List Byte) : Reader := { Reader.reset with rst := .opened, src := p }

/-! ## Memory -/

/-- The byte at an address; an address that is not listed reads as 0 (log entry 7). -/
def Memory.read : Memory → Nat → Byte
  | [], _ => 0
  | (b, v) :: m, a => if b = a then v else Memory.read m a

/-- Write one byte and keep the canonical form. -/
def Memory.write : Memory → Nat → Byte → Memory
  | [], a, v => if v = 0 then [] else [(a, v)]
  | (b, u) :: m, a, v =>
    if a < b then (if v = 0 then (b, u) :: m else (a, v) :: (b, u) :: m)
    else if a = b then (if v = 0 then m else (a, v) :: m)
    else (b, u) :: Memory.write m a v

/-- Pointwise unsigned maximum of two register arrays (R134): each listed byte of the second is merged into the first. -/
def Memory.merge (m other : Memory) : Memory :=
  other.foldl (fun acc c => acc.write c.1 (maxByte (acc.read c.1) c.2)) m

/-! ## The writer's bit path -/

/-- `v[i] <- b` (R8). -/
def assignBit (v : Byte) (i : Nat) (b : Bool) : Byte :=
  if b then v ||| (1#8 <<< i) else v &&& ~~~(1#8 <<< i)

/-- `MemWrite(SNK, WPOS, 1, WCUR)` and the cursor on the next byte boundary (R51, R104, R105). -/
def emitByte (w : Writer) : Writer :=
  { w with snk := w.snk ++ [w.wcur], wpos := w.wpos + 1, wbit := 0, wcur := 0 }

/-- One turn of the loop of `put` (R104). -/
def putBit (b : Bool) (w : Writer) : Writer :=
  let cur := assignBit w.wcur (7 - w.wbit.toNat) b
  if w.wbit = 7 then emitByte { w with wcur := cur } else { w with wcur := cur, wbit := w.wbit + 1 }

/-- `put(f, n)`: the low `n` bits of `f`, most significant first (R104). -/
def put (f : Word) : Nat → Writer → Writer
  | 0, w => w
  | k + 1, w => put f k (putBit (f.getLsbD k) w)

/-- Varint bytes through the bit path, each as an 8-bit field (R57, R102). -/
def putBytes (l : List Byte) (w : Writer) : Writer :=
  l.foldl (fun w b => put (b.zeroExtend 64) 8 w) w

/-- Emit the partial byte, if there is one (R105). -/
def alignWriter (w : Writer) : Writer := if w.wbit = 0 then w else emitByte w

/-! ## The reader's bit path -/

/-- `AVAIL`, the number of unread bits (R38); 0 where the difference would be negative (log entry 11). -/
def avail (r : Reader) : Nat := 8 * (r.src.length - r.rpos.toNat) - r.rbit.toNat

/-- The byte that holds the next unread bit: `RCUR`, or the next source byte on a boundary (R29, R111); none at or past the
end of the packet (R52). -/
def currentByte (r : Reader) : Option Byte :=
  if r.rbit = 0 then r.src[r.rpos.toNat]? else some r.rcur

/-- The cursor past the byte it is in (R111, R114). -/
def nextByte (r : Reader) : Reader := { r with rpos := r.rpos + 1, rbit := 0, rcur := 0 }

/-- One turn of the loop of `get` (R111). -/
def getBit (r : Reader) : Option (Bool × Reader) :=
  match currentByte r with
  | none => none
  | some cur =>
    some (cur.getLsbD (7 - r.rbit.toNat),
      if r.rbit = 7 then nextByte r else { r with rcur := cur, rbit := r.rbit + 1 })

/-- `get(n)` with the value read so far (R111); none if a byte past the end would be read (R52; log entry 11). -/
def getInto : Nat → Word → Reader → Option (Word × Reader)
  | 0, v, r => some (v, r)
  | k + 1, v, r =>
    match getBit r with
    | none => none
    | some (b, r') => getInto k ((v <<< 1) ||| (BitVec.ofBool b).zeroExtend 64) r'

/-- `get(n)`: the next `n` bits, the first read most significant (R111). -/
def get (n : Nat) (r : Reader) : Option (Word × Reader) := getInto n 0 r

/-- The loop of `RV64` and `RV32` (R112, R113): `width` bits in at most `groups` groups; the first argument counts the groups
still allowed, `i` is the group index. EOS for a missing byte, VARINT for value bits at `width` and above, VARINT when a
further group would be needed. -/
def getGroups (width groups : Nat) : Nat → Nat → BitVec width → Reader → Except FaultCode (BitVec width × Reader)
  | 0, _, _, _ => .error .varint
  | k + 1, i, acc, r =>
    if avail r < 8 then .error .eos
    else
      match get 8 r with
      | none => .error .eos
      | some (v, r') =>
        let byte : Byte := v.extractLsb' 0 8
        let g := groupOf byte
        if i = groups - 1 ∧ g >>> (width - 7 * i) ≠ 0 then .error .varint
        else
          let acc' := acc ||| (g.zeroExtend width <<< (7 * i))
          if moreGroups byte then getGroups width groups k (i + 1) acc' r' else .ok (acc', r')

/-- A varint of `width` bits (R112, R113). -/
def getVarint (width groups : Nat) (r : Reader) : Except FaultCode (BitVec width × Reader) :=
  getGroups width groups groups 0 0 r

/-- Discard the rest of the partial byte, if there is one (R114). -/
def alignReader (r : Reader) : Reader := if r.rbit = 0 then r else nextByte r

/-! ## Slots -/

/-- The slot checks of R135 for a command that names one slot: INDEX, then STATE, then the command's own part. -/
def withSketch (i : Nat) (s : State) (body : Sketch → Result) : Result :=
  match s.h[i]? with
  | none => raise .sketch .index s
  | some k => if k.valid then body k else raise .sketch .state s

/-- The number of registers of a sketch, `2^B` (R32). -/
def Sketch.size (k : Sketch) : Nat := 2 ^ k.b.toNat

/-! ## Reset and the environment -/

/-- Every element of the block at its reset value (R39, R160); what lies outside the block stays as it is. -/
def resetBlock (s : State) : State :=
  { State.resetFor { nsketch := s.nsketch } with inputs := s.inputs, offer := s.offer, resp := s.resp }

/-- The reset signal at a command boundary (R160, R171): the reset state, with no response (log entry 12). -/
def resetSignal (s : State) : Result := .next ((resetBlock s).setResp none)

/-- The environment presents a packet (R52): one of 2^61 bytes or more has no move (log entry 5). -/
def presentPacket (p : List Byte) (s : State) : Result :=
  if p.length < Config.packetBound then .next (s.setOffer p) else .fault .packetTooLong

/-- Where a step takes the host's next command from: the front of the inputs. -/
def placeCommand (cmd : CmdWord) (data : Word) (s : State) : State := s.setInputs (.command cmd data :: s.inputs)

end Sys2Proof.Machine
end

