-- ==== Sys2Proof/Machine/Hll.lean ====
section
/-! DEFINITION. The meanings of the HyperLogLog sketch commands (spec rules R130 to R135). -/

namespace Sys2Proof.Machine

/-- `HNEW s, b` (R130): a new sketch whose registers are all 0. -/
def execHnew (i b : Nat) (s : State) : Result :=
  if s.nsketch ≤ i then raise .sketch .index s
  else if b < Config.bMin ∨ b > Config.bMax then raise .sketch .range s
  else respond 0 (s.setSlot i { valid := true, b := BitVec.ofNat 4 b, reg := [] })

/-- `HGET s, idx` (R131): the index is compared on all 64 bits. -/
def execHget (i : Nat) (idx : Word) (s : State) : Result :=
  withSketch i s fun k =>
    if k.size ≤ idx.toNat then raise .sketch .index s
    else respond ((k.reg.read idx.toNat).zeroExtend 64) s

/-- `HSET s, v, idx` (R132). -/
def execHset (i : Nat) (v : Byte) (idx : Word) (s : State) : Result :=
  withSketch i s fun k =>
    if k.size ≤ idx.toNat then raise .sketch .index s
    else respond 0 (s.setSlot i { k with reg := k.reg.write idx.toNat v })

/-- `HRST s` (R133): every register 0; `VALID` and `B` stay. -/
def execHrst (i : Nat) (s : State) : Result :=
  withSketch i s fun k => respond 0 (s.setSlot i { k with reg := [] })

/-- `HAGG d, s` (R134): both slot numbers, then both `VALID` bits, `d` first (R135); a mismatch of `B` merges nothing, sets
`HSR.MM` and responds 1. -/
def execHagg (d i : Nat) (s : State) : Result :=
  match s.h[d]?, s.h[i]? with
  | none, _ => raise .sketch .index s
  | some _, none => raise .sketch .index s
  | some kd, some ki =>
    if kd.valid = false then raise .sketch .state s
    else if ki.valid = false then raise .sketch .state s
    else if kd.b ≠ ki.b then respond 1 (s.setMm true)
    else respond 0 (s.setSlot d { kd with reg := kd.reg.merge ki.reg })

end Sys2Proof.Machine
end

