-- ==== Sys2Proof/Machine/Primitives.lean ====
section
/-! DEFINITION. The meanings of the bit primitive commands (spec rules R120 to R126): functions of the operand that read and
write no state of the block but the response, and `FSR` on a fault. -/

namespace Sys2Proof.Machine

/-- `POPCNT x` (R120). -/
def execPopcnt (x : Word) (s : State) : Result := respond (BitVec.ofNat 64 (popCount x)) s

/-- `CLZ x` (R121). -/
def execClz (x : Word) (s : State) : Result := respond (BitVec.ofNat 64 (leadingZeros x)) s

/-- `CTZ x` (R122). -/
def execCtz (x : Word) (s : State) : Result := respond (BitVec.ofNat 64 (trailingZeros x)) s

/-- `NLPO2 x` (R123): RANGE for a negative operand and for one of 2^30 or more. -/
def execNlpo2 (x : BitVec 32) (s : State) : Result :=
  if nextPowerDefined x then respond (nextPower x) s else raise .primitive .range s

/-- `ISPOW2 x` (R124). -/
def execIspow2 (x : Word) (s : State) : Result := respond (if isPowerOfTwo x then 1 else 0) s

/-- `BSWAP32 x` (R125): zero-extended. -/
def execBswap32 (x : BitVec 32) (s : State) : Result := respond ((byteSwap32 x).zeroExtend 64) s

/-- `BSWAP64 x` (R126). -/
def execBswap64 (x : Word) (s : State) : Result := respond (byteSwap64 x) s

end Sys2Proof.Machine
end

