-- ==== Sys2Proof/Machine/Reader.lean ====
section
/-! DEFINITION. The meanings of the bit reader commands (spec rules R110 to R115). Every one but ROPEN needs `RST = OPEN` and
otherwise faults STATE; a command that faults leaves the cursor as it was (R144). -/

namespace Sys2Proof.Machine

/-- `ROPEN` (R115): legal in every `RST`; binds the packet the environment presents. -/
def execRopen (s : State) : Result := respond 0 (s.setR (openReader s.offer))

/-- `RBITS n` (R110): STATE, then WIDTH, then EOS, then the field. -/
def execRbits (n : Nat) (s : State) : Result :=
  if s.r.rst ≠ .opened then raise .reader .state s
  else if n < Config.nbMin ∨ n > Config.nbMax then raise .reader .width s
  else if n > avail s.r then raise .reader .eos s
  else
    match get n s.r with
    | none => raise .reader .eos s
    | some (v, r) => respond v (s.setR r)

/-- `RV64` (R112). -/
def execRv64 (s : State) : Result :=
  if s.r.rst ≠ .opened then raise .reader .state s
  else
    match getVarint 64 Config.maxG64 s.r with
    | .error c => raise .reader c s
    | .ok (v, r) => respond v (s.setR r)

/-- `RV32` (R113): the 32-bit value, zero-extended. -/
def execRv32 (s : State) : Result :=
  if s.r.rst ≠ .opened then raise .reader .state s
  else
    match getVarint 32 Config.maxG32 s.r with
    | .error c => raise .reader c s
    | .ok (v, r) => respond (v.zeroExtend 64) (s.setR r)

/-- `RALIGN` (R114): reads no new byte, so it cannot fault EOS. -/
def execRalign (s : State) : Result :=
  if s.r.rst ≠ .opened then raise .reader .state s
  else respond 0 (s.setR (alignReader s.r))

end Sys2Proof.Machine
end

