-- ==== Sys2Proof/Machine/System.lean ====
section
/-! DEFINITION. The meanings of the system commands NOP, RDSR, SRST (spec rules R90 to R92). -/

namespace Sys2Proof.Machine

/-- `NOP` (R90). -/
def execNop (s : State) : Result := respond 0 s

/-- `RDSR a` (R91): the status register at `a`, ILLEGAL where R35 has none. -/
def execRdsr (a : Nat) (s : State) : Result :=
  match statusRegister s a with
  | none => raise .system .illegal s
  | some v => respond v s

/-- `SRST` (R92): what reset does, and the response. -/
def execSrst (s : State) : Result := respond 0 (resetBlock s)

end Sys2Proof.Machine
end

