-- ==== Sys2Proof/Machine/Writer.lean ====
section
/-! DEFINITION. The meanings of the bit writer commands (spec rules R100 to R107). Every one but WOPEN needs `WST = OPEN` and
otherwise faults STATE. -/

namespace Sys2Proof.Machine

/-- `WOPEN` (R107): legal in every `WST`. -/
def execWopen (s : State) : Result := respond 0 (s.setW openWriter)

/-- `WBITS n, p, value` (R100): STATE, then WIDTH, then the slice through `put`. -/
def execWbits (n p : Nat) (value : Word) (s : State) : Result :=
  if s.w.wst ≠ .opened then raise .writer .state s
  else if n < Config.nbMin ∨ n + p > Config.nbMax then raise .writer .width s
  else respond 0 (s.setW (put (slice value n p) n s.w))

/-- `WBIT bit` (R101). -/
def execWbit (bit : Bool) (s : State) : Result :=
  if s.w.wst ≠ .opened then raise .writer .state s
  else respond 0 (s.setW (putBit bit s.w))

/-- `WV64 value` (R102). -/
def execWv64 (value : Word) (s : State) : Result :=
  if s.w.wst ≠ .opened then raise .writer .state s
  else respond 0 (s.setW (putBytes (varintEncode value) s.w))

/-- `WV32 value` (R103): the loop of R102 on the zero-extended value. -/
def execWv32 (value : BitVec 32) (s : State) : Result :=
  if s.w.wst ≠ .opened then raise .writer .state s
  else respond 0 (s.setW (putBytes (varintEncode (value.zeroExtend 64)) s.w))

/-- `WALIGN` (R105). -/
def execWalign (s : State) : Result :=
  if s.w.wst ≠ .opened then raise .writer .state s
  else respond 0 (s.setW (alignWriter s.w))

/-- `WFLUSH` (R106): what WALIGN does, then the end mark and `FLUSHED`. -/
def execWflush (s : State) : Result :=
  if s.w.wst ≠ .opened then raise .writer .state s
  else respond 0 (s.setW { alignWriter s.w with snkDone := true, wst := .flushed })

end Sys2Proof.Machine
end

