-- ==== Sys2Proof/Machine/Dispatch.lean ====
section
/-! DEFINITION. The dispatch: one arm per command (spec rule R76), each a call of its meaning. -/

namespace Sys2Proof.Machine

def exec (i : Instr) (s : State) : Host.Outcome State Fault Refusal :=
  match i with
  | .nop => Sys2Proof.Machine.execNop s
  | .rdsr a => Sys2Proof.Machine.execRdsr a s
  | .srst => Sys2Proof.Machine.execSrst s
  | .wopen => Sys2Proof.Machine.execWopen s
  | .wbits n p value => Sys2Proof.Machine.execWbits n p value s
  | .wbit bit => Sys2Proof.Machine.execWbit bit s
  | .wv64 value => Sys2Proof.Machine.execWv64 value s
  | .wv32 value => Sys2Proof.Machine.execWv32 value s
  | .walign => Sys2Proof.Machine.execWalign s
  | .wflush => Sys2Proof.Machine.execWflush s
  | .ropen => Sys2Proof.Machine.execRopen s
  | .rbits n => Sys2Proof.Machine.execRbits n s
  | .rv64 => Sys2Proof.Machine.execRv64 s
  | .rv32 => Sys2Proof.Machine.execRv32 s
  | .ralign => Sys2Proof.Machine.execRalign s
  | .popcnt x => Sys2Proof.Machine.execPopcnt x s
  | .clz x => Sys2Proof.Machine.execClz x s
  | .ctz x => Sys2Proof.Machine.execCtz x s
  | .nlpo2 x => Sys2Proof.Machine.execNlpo2 x s
  | .ispow2 x => Sys2Proof.Machine.execIspow2 x s
  | .bswap32 x => Sys2Proof.Machine.execBswap32 x s
  | .bswap64 x => Sys2Proof.Machine.execBswap64 x s
  | .hnew k b => Sys2Proof.Machine.execHnew k b s
  | .hget k idx => Sys2Proof.Machine.execHget k idx s
  | .hset k v idx => Sys2Proof.Machine.execHset k v idx s
  | .hrst k => Sys2Proof.Machine.execHrst k s
  | .hagg d k => Sys2Proof.Machine.execHagg d k s

end Sys2Proof.Machine
end

