-- ==== Sys2Proof/Machine/Step.lean ====
section
/-! DEFINITION. One step of the machine: the next move of the host or the environment (spec rules R70, R171), or waiting. -/

namespace Sys2Proof.Machine

/-- The block takes a command word: the command it decodes to runs, an illegal word faults (R70, R77). -/
def runCommand (cmd : CmdWord) (data : Word) (s : State) : Result :=
  match Sys2Proof.decode cmd data with
  | .ok i => exec i s
  | .error _ => illegalWord s

/-- One step. With no input pending the block waits (R160, R172; log entry 1). -/
def step (s : State) : Host.Outcome State Fault Refusal :=
  match s.inputs with
  | [] => .next s
  | .command cmd data :: rest => runCommand cmd data (s.setInputs rest)
  | .packet p :: rest => presentPacket p (s.setInputs rest)
  | .reset :: rest => resetSignal (s.setInputs rest)

/-- The instruction word of an opcode-table row, placed as the command the host issues next (log entry 2). -/
def State.withFetchWord (s : State) (nbits w : Nat) : State :=
  placeCommand (Sys2Proof.tableBits nbits w).1 (Sys2Proof.tableBits nbits w).2 s

end Sys2Proof.Machine
end

