-- ==== Sys2Proof/Safety.lean ====
section
/-! DEFINITION. The terms claims are stated in: the unused fields of a command word (spec rule R72), the stream of bits behind
the writer and the reader (R54, R55, R66, R67), varints as numbers (R56), units and faults (R39, R141), the invariant of the
machine (R25, R27, R29, R31, R34, R38, R140), and runs of commands (R117, R172). -/

namespace Sys2Proof

/-- The fields a format does not use are 0 in a word (R71, R72). -/
def unusedZero (f : Format) (a b c : BitVec 8) : Prop :=
  match f with
  | .z => a = 0 ∧ b = 0 ∧ c = 0
  | .a => b = 0 ∧ c = 0
  | .ab => c = 0
  | .ac => b = 0

end Sys2Proof

namespace Sys2Proof.Machine

/-! ## Streams of bits -/

/-- The low `n` bits of a value, most significant first: a field on the stream (R55). -/
def fieldBits {width : Nat} (f : BitVec width) : Nat → List Bool
  | 0 => []
  | k + 1 => f.getLsbD k :: fieldBits f k

/-- The bits of a byte sequence: bit 7 of byte 0 first (R54). -/
def bytesBits (l : List Byte) : List Bool := l.flatMap (fun b => fieldBits b 8)

/-- The number whose binary digits these are, most significant first (R67). -/
def bitsValue (l : List Bool) : Nat := l.foldl (fun v b => 2 * v + b.toNat) 0

/-- The bits the current writer instance has written: those of the emitted bytes, then those of the partial byte (R66). -/
def Writer.bits (w : Writer) : List Bool := bytesBits w.snk ++ (fieldBits w.wcur 8).take w.wbit.toNat

/-- The unfilled bits of the partial byte are 0 (R24, R25). -/
def Writer.padded (w : Writer) : Prop := ∀ j, j < 8 - w.wbit.toNat → w.wcur.getLsbD j = false

/-- `w'` is the writer `w` after the bits `l` have been put (R66, R104): they follow the bits written before, the cursor has
moved by their number, whole bytes have been emitted and counted, the life-cycle state is the same. -/
structure Appended (w w' : Writer) (l : List Bool) : Prop where
  bits : w'.bits = w.bits ++ l
  wst : w'.wst = w.wst
  snkDone : w'.snkDone = w.snkDone
  wbit : w'.wbit.toNat = (w.wbit.toNat + l.length) % 8
  emitted : ∃ m : List Byte, w'.snk = w.snk ++ m ∧ m.length = (w.wbit.toNat + l.length) / 8 ∧
    w'.wpos = w.wpos + BitVec.ofNat 64 m.length
  padded : w.padded → w'.padded

/-- The bits of the source packet (R67). -/
def Reader.bits (r : Reader) : List Bool := bytesBits r.src

/-- The reader's total bit position (R29). -/
def Reader.position (r : Reader) : Nat := 8 * r.rpos.toNat + r.rbit.toNat

/-- The bits not read yet. -/
def Reader.rest (r : Reader) : List Bool := r.bits.drop r.position

/-! ## Varints as numbers -/

/-- `bitlength(u)`: the position of the highest 1 plus one, 0 for 0 (R12). -/
def bitlength (u : Nat) : Nat := if u = 0 then 0 else u.log2 + 1

/-- The number the groups of a byte sequence make, group `i` weighing 2^(7i) (R56). -/
def groupsValue : List Byte → Nat
  | [] => 0
  | b :: l => b.toNat % 128 + 128 * groupsValue l

/-- Every byte has its continuation flag set (R56). -/
def allContinue (l : List Byte) : Prop := ∀ b ∈ l, b.getLsbD 7 = true

/-- A complete varint: the flag is set in every byte but the last (R56). -/
def isVarint (l : List Byte) : Prop := ∃ m b, l = m ++ [b] ∧ allContinue m ∧ b.getLsbD 7 = false

/-- The varint of `u` as R56 gives it: `max(1, ceil(bitlength(u) / 7))` bytes, byte `i` made of group `i` and of a flag that is 1
in all but the last. -/
def isVarintOf (u : Nat) (l : List Byte) : Prop :=
  l.length = max 1 ((bitlength u + 6) / 7) ∧
  ∀ i (h : i < l.length), l[i].toNat = u / 2 ^ (7 * i) % 128 + (if i + 1 < l.length then 128 else 0)

/-! ## The invariant -/

/-- The writer: emitted bytes are counted (R27), the unfilled bits of the partial byte are 0 (R25), the end mark stands exactly
in a flushed instance (R27, R106), and an idle writer is the reset one (R160). -/
def Writer.Inv (w : Writer) : Prop :=
  w.wpos = BitVec.ofNat 64 w.snk.length ∧
  w.padded ∧
  (w.snkDone = true ↔ w.wst = .flushed) ∧
  (w.wst = .flushed → w.wbit = 0) ∧
  (w.wst = .idle → w = Writer.reset)

/-- The reader: the packet is shorter than 2^61 bytes (R38), the cursor stands in it or at its end, `RCUR` holds the byte under
the cursor inside a byte and 0 on a boundary (R29), and an idle reader is the reset one (R160). -/
def Reader.Inv (r : Reader) : Prop :=
  r.src.length < Config.packetBound ∧
  r.position ≤ 8 * r.src.length ∧
  (r.rbit = 0 → r.rcur = 0) ∧
  (r.rbit ≠ 0 → r.src[r.rpos.toNat]? = some r.rcur) ∧
  (r.rst = .idle → r = Reader.reset)

/-- A slot: its registers are in canonical form and belong to the sketch, `B` is 4 to 14 while the slot is valid (R31, R32), and
0 while it is not (R160: only HNEW writes either). -/
def Sketch.Inv (k : Sketch) : Prop :=
  Memory.wf k.reg ∧
  (∀ c ∈ k.reg, c.1 < k.size) ∧
  (k.valid = true → Config.bMin ≤ k.b.toNat ∧ k.b.toNat ≤ Config.bMax) ∧
  (k.valid = false → k.b = 0)

/-- A response: a code of 0 to 7, and `RDATA` 0 with a fault (R75, R140). -/
def Response.Inv (p : Response) : Prop := p.status.toNat ≤ 7 ∧ (p.status ≠ 0 → p.rdata = 0)

/-- The machine: its units, `FSR` bit 0 is 0 (R34), the presented packet is within bounds (R38), and so is the last response. -/
structure State.Inv (s : State) : Prop where
  writer : s.w.Inv
  reader : s.r.Inv
  slots : ∀ k ∈ s.h, k.Inv
  fsr : s.fsr.getLsbD 0 = false
  offer : s.offer.length < Config.packetBound
  resp : ∀ p, s.resp = some p → p.Inv

/-! ## Units and faults -/

/-- The unit a command belongs to (R76). -/
def unitOf : Op → UnitClass
  | .nop | .rdsr | .srst => .system
  | .wopen | .wbits | .wbit | .wv64 | .wv32 | .walign | .wflush => .writer
  | .ropen | .rbits | .rv64 | .rv32 | .ralign => .reader
  | .popcnt | .clz | .ctz | .nlpo2 | .ispow2 | .bswap32 | .bswap64 => .primitive
  | .hnew | .hget | .hset | .hrst | .hagg => .sketch

/-- The faults a legal word of each command can raise: the table of R141 without its column ILLEGAL, which is about illegal words,
except for RDSR (R91). -/
def faultsOf : Op → List FaultCode
  | .nop | .srst | .wopen | .ropen => []
  | .rdsr => [.illegal]
  | .wbits => [.width, .state]
  | .wbit | .wv64 | .wv32 | .walign | .wflush => [.state]
  | .rbits => [.width, .state, .eos]
  | .rv64 | .rv32 => [.state, .eos, .varint]
  | .ralign => [.state]
  | .popcnt | .clz | .ctz | .ispow2 | .bswap32 | .bswap64 => []
  | .nlpo2 => [.range]
  | .hnew => [.index, .range]
  | .hget | .hset | .hrst | .hagg => [.state, .index]

/-- The unit of the command a word is; an illegal word belongs to none and spoils none (R77, R144). -/
def unitOfWord (cmd : CmdWord) (data : Word) : UnitClass :=
  match decode cmd data with
  | .ok i => unitOf i.op
  | .error _ => .system

/-- How a command is issued (R71 to R74, R77 and the `Encoding` line of its rule): a word with this `OP`, whose fields that the
format does not use are 0, runs the command made of its fields and of `DATA`; any other word with this `OP` faults ILLEGAL and
changes `FSR[1]` alone. -/
def IssuedAs (code : BitVec 8) (format : Format) (command : (a b c : BitVec 8) → Word → Instr) : Prop :=
  ∀ (s : State) (cmd : CmdWord) (data : Word) (rest : List Input), s.inputs = .command cmd data :: rest →
    cmd.extractLsb' 24 8 = code →
      (unusedZero format (cmd.extractLsb' 16 8) (cmd.extractLsb' 8 8) (cmd.extractLsb' 0 8) →
        step s = exec (command (cmd.extractLsb' 16 8) (cmd.extractLsb' 8 8) (cmd.extractLsb' 0 8) data)
          { s with inputs := rest }) ∧
      (¬ unusedZero format (cmd.extractLsb' 16 8) (cmd.extractLsb' 8 8) (cmd.extractLsb' 0 8) →
        step s = .next { s with inputs := rest, fsr := s.fsr ||| 0b10, resp := some ⟨1, 0⟩ })

/-- The slot whose sketch a command may change (R130 to R134). -/
def targetSlot : Instr → Option Nat
  | .hnew s _ => some s
  | .hset s _ _ => some s
  | .hrst s => some s
  | .hagg d _ => some d
  | .hget _ _ => none
  | .nop | .rdsr _ | .srst | .wopen | .wbits _ _ _ | .wbit _ | .wv64 _ | .wv32 _ | .walign | .wflush | .ropen | .rbits _ | .rv64
  | .rv32 | .ralign | .popcnt _ | .clz _ | .ctz _ | .nlpo2 _ | .ispow2 _ | .bswap32 _ | .bswap64 _ => none

/-! ## Runs of commands -/

/-- A list of commands issued one after the other, with the responses, first one first; none if one gives no next state. -/
def runCommands : List Instr → State → Option (List Response × State)
  | [], s => some ([], s)
  | i :: is, s =>
    match exec i s with
    | .next t =>
      match t.resp, runCommands is t with
      | some p, some (ps, u) => some (p :: ps, u)
      | _, _ => none
    | _ => none

/-- The write commands of R117, with the data each carries. -/
inductive FieldWrite where
  | bits (n p : Nat) (value : Word)
  | bit (b : Bool)
  | varint64 (value : Word)
  | varint32 (value : BitVec 32)
  | align
  deriving DecidableEq, Repr

/-- The command that writes it (R100 to R103, R105). -/
def FieldWrite.command : FieldWrite → Instr
  | .bits n p value => .wbits n p value
  | .bit b => .wbit b
  | .varint64 value => .wv64 value
  | .varint32 value => .wv32 value
  | .align => .walign

/-- The read command that mirrors it (R117). -/
def FieldWrite.mirror : FieldWrite → Instr
  | .bits n _ _ => .rbits n
  | .bit _ => .rbits 1
  | .varint64 _ => .rv64
  | .varint32 _ => .rv32
  | .align => .ralign

/-- What the mirrored read returns (R117). -/
def FieldWrite.value : FieldWrite → Word
  | .bits n p value => slice value n p
  | .bit b => (BitVec.ofBool b).zeroExtend 64
  | .varint64 value => value
  | .varint32 value => value.zeroExtend 64
  | .align => 0

/-- Its operands are in their legal range, so that it does not fault (R100). -/
def FieldWrite.legal : FieldWrite → Prop
  | .bits n p _ => 1 ≤ n ∧ n + p ≤ 64
  | .bit _ | .varint64 _ | .varint32 _ | .align => True

end Sys2Proof.Machine
end

