-- ==== Sys2Proof/Certificates/Slice0/Obligations.lean ====
section
/-! DEFINITION. The statements for the provers, one `def Obligations.<Name> : Prop` each. A docstring names the rules of the spec a
statement formalises, and says where it rests on a choice of the model (a log entry) or on an inference the spec marks. -/

open Sys2Proof Sys2Proof.Machine

/-! ## Decoding and encoding -/

/-- R70, R77: when the word the host issues next decodes to a command, the step is that command's meaning, run with the word
taken off the inputs (the queue of inputs is the model's, log entry 1). -/
def Obligations.StepRunsDecodedCommand : Prop :=
  ∀ (s : State) (cmd : CmdWord) (data : Word) (rest : List Input) (i : Instr),
    s.inputs = .command cmd data :: rest → decode cmd data = .ok i → step s = exec i { s with inputs := rest }

/-- R77: an illegal word answers STATUS 1 and sets FSR[1], and nothing else changes. -/
def Obligations.IllegalWordFaultsIllegal : Prop :=
  ∀ (s : State) (cmd : CmdWord) (data : Word) (rest : List Input) (e : DecodeError),
    s.inputs = .command cmd data :: rest → decode cmd data = .error e →
      step s = .next { s with inputs := rest, fsr := s.fsr ||| 0b10, resp := some ⟨1, 0⟩ }

/-- R76, R80: words of each family, written out from the spec's table of encodings, decode to the commands they stand for, and
words V2, V3, V5, V7 are refused by name. -/
def Obligations.WordsOfTheSpecDecode : Prop :=
  decode 0x00000000 0 = .ok .nop ∧ decode 0x01060000 7 = .ok (.rdsr 6) ∧
  decode 0x11080400 0xABCD = .ok (.wbits 8 4 0xABCD) ∧ decode 0x12000000 0xFFFFFFFFFFFFFFFE = .ok (.wbit false) ∧
  decode 0x14000000 0x10000012C = .ok (.wv32 0x12C) ∧ decode 0x21410000 0 = .ok (.rbits 65) ∧
  decode 0x33000000 0xFFFFFFFF00000020 = .ok (.nlpo2 32) ∧ decode 0x40000E00 0 = .ok (.hnew 0 14) ∧
  decode 0x42020011 5 = .ok (.hset 2 17 5) ∧ decode 0x44010200 0 = .ok (.hagg 1 2) ∧
  decode 0x11080401 0 = .error .fieldNotZero ∧ decode 0x22000000 0 = .error .reservedOp ∧
  decode 0x00000001 0 = .error .fieldNotZero ∧ decode 0x42020111 0 = .error .fieldNotZero

/-- R71, R73, R74, R76: decoding the words of a well-formed command gives it back, whatever its operands. -/
def Obligations.DecodeOfEncode : Prop :=
  ∀ i : Instr, i.wellFormed = true → decode (encode i).1 (encode i).2 = .ok i

/-- R71, R73, R74, R77: a pair that decodes to a command is the one word of that command, and its DATA differs from the encoder's
only in bits the command does not read; the command is well formed. -/
def Obligations.EncodeOfDecode : Prop :=
  ∀ (cmd : CmdWord) (data : Word) (i : Instr), decode cmd data = .ok i →
    i.wellFormed = true ∧ (encode i).1 = cmd ∧ (encode i).2 = data &&& i.op.dataMask

/-- R77: every word is one command of the map or illegal: it decodes exactly when its OP is one of the 27 values and its unused
fields are 0, to the command of that OP; no two commands have one OP, and 229 OP values are reserved. -/
def Obligations.DecoderIsTotalAndUnambiguous : Prop :=
  (∀ (cmd : CmdWord) (data : Word),
    (∃ i, decode cmd data = .ok i ∧ i.op.code = cmd.extractLsb' 24 8 ∧
      unusedZero i.op.format (cmd.extractLsb' 16 8) (cmd.extractLsb' 8 8) (cmd.extractLsb' 0 8)) ∨
    (decode cmd data = .error .reservedOp ∧ ∀ o : Op, o.code ≠ cmd.extractLsb' 24 8) ∨
    (decode cmd data = .error .fieldNotZero ∧ ∃ o : Op, o.code = cmd.extractLsb' 24 8 ∧
      ¬ unusedZero o.format (cmd.extractLsb' 16 8) (cmd.extractLsb' 8 8) (cmd.extractLsb' 0 8))) ∧
  (∀ o o' : Op, o.code = o'.code → o = o') ∧
  ((List.range 256).filter (fun n => Op.all.all (fun o => o.code != BitVec.ofNat 8 n))).length = 229

/-- R74: the bits of DATA a command does not read change nothing. -/
def Obligations.IgnoredDataBitsChangeNothing : Prop :=
  ∀ (cmd : CmdWord) (data data' : Word),
    (∀ o : Op, o.code = cmd.extractLsb' 24 8 → data &&& o.dataMask = data' &&& o.dataMask) →
      decode cmd data = decode cmd data'

/-! ## Reset and the host interface -/

/-- R160: the state after reset, element by element, and no sketch in any of the four slots (R5). The registers of the slots are
left open here, as in the rule. -/
def Obligations.ResetLeavesNoInstance : Prop :=
  State.reset.w = ⟨.idle, 0, 0, 0, [], false⟩ ∧ State.reset.r = ⟨.idle, 0, 0, 0, []⟩ ∧ State.reset.fsr = 0 ∧
  State.reset.mm = false ∧ State.reset.h.length = 4 ∧ ∀ k ∈ State.reset.h, k.valid = false ∧ k.b = 0

/-- R160: hardware reset and SRST put the block in the same state. That the signal leaves no response, and that it leaves the moves to
come and the presented packet as they are, is the model's choice (log entry 12). -/
def Obligations.ResetSignalEqualsSrst : Prop :=
  ∀ (s : State) (rest : List Input), s.inputs = .reset :: rest →
    ∃ t u, step s = .next t ∧ exec .srst s = .next u ∧ t.w = u.w ∧ t.r = u.r ∧ t.h = u.h ∧ t.fsr = u.fsr ∧ t.mm = u.mm ∧
      t.inputs = rest ∧ t.offer = s.offer ∧ t.resp = none

/-- R52 and log entries 4 and 5: a packet below 2^61 bytes that the environment presents is what the next ROPEN will take, and
changes nothing of the block; for a longer one the model stops by name. -/
def Obligations.PresentedPacketIsOffered : Prop :=
  ∀ (s : State) (p : List Byte) (rest : List Input), s.inputs = .packet p :: rest →
    (p.length < 2 ^ 61 → step s = .next { s with inputs := rest, offer := p }) ∧
    (2 ^ 61 ≤ p.length → step s = .fault .packetTooLong)

/-- R160, R172 and log entry 1: with no input pending the block waits in its state. -/
def Obligations.BlockWaitsForInput : Prop :=
  ∀ s : State, s.inputs = [] → step s = .next s

/-! ## System commands

Each statement of an instruction's rule begins with `IssuedAs`: the words that issue it, and the words with its `OP` that are illegal. -/

/-- R90: NOP writes no state and answers OK, 0. -/
def Obligations.NopOnlyResponds : Prop :=
  IssuedAs 0x00 .z (fun _ _ _ _ => .nop) ∧
  ∀ s : State, exec .nop s = .next { s with resp := some ⟨0, 0⟩ }

/-- R35, R91: RDSR answers the register at each address of the map, laid out as R35 says (CFG: in a build whose number of slots fits
its 8-bit field), and writes no state; at any other address it faults ILLEGAL. -/
def Obligations.RdsrReadsTheMap : Prop :=
  IssuedAs 0x01 .a (fun a _ _ _ => .rdsr a.toNat) ∧
  ∀ s : State,
    let answers := fun (a v : Nat) => exec (.rdsr a) s = .next { s with resp := some ⟨0, BitVec.ofNat 64 v⟩ }
    answers 0x00 (2 * (s.fsr.toNat / 2)) ∧
    answers 0x01 (s.w.wst.code.toNat + 2 ^ 4 * s.w.wbit.toNat + 2 ^ 7 * s.w.snkDone.toNat + 2 ^ 8 * s.w.wcur.toNat) ∧
    answers 0x02 s.w.wpos.toNat ∧
    answers 0x03 (s.r.rst.code.toNat + 2 ^ 4 * s.r.rbit.toNat + 2 ^ 8 * s.r.rcur.toNat) ∧
    answers 0x04 s.r.rpos.toNat ∧
    answers 0x05 s.mm.toNat ∧
    (s.h.length < 2 ^ 8 → answers 0x06 (s.h.length + 2 ^ 8 * 1)) ∧
    (∀ (n : Nat) (k : Sketch), s.h[n]? = some k → answers (0x10 + n) (k.valid.toNat + 2 ^ 4 * k.b.toNat)) ∧
    (∀ a, (0x06 < a ∧ a < 0x10) ∨ 0x10 + s.h.length ≤ a →
      exec (.rdsr a) s = .next { s with fsr := s.fsr ||| 0b10, resp := some ⟨1, 0⟩ })

/-- R92: SRST sets every element to its reset value and answers OK, 0. The registers of the slots are left open, as in the rule.
That the moves to come and the presented packet, which lie outside the block, stay as they are is the model's choice (log entry
12). -/
def Obligations.SrstResetsEveryElement : Prop :=
  IssuedAs 0x02 .z (fun _ _ _ _ => .srst) ∧
  ∀ s : State, ∃ h : List Sketch,
    exec .srst s = .next
      { w := ⟨.idle, 0, 0, 0, [], false⟩, r := ⟨.idle, 0, 0, 0, []⟩, h := h, fsr := 0, mm := false,
        inputs := s.inputs, offer := s.offer, resp := some ⟨0, 0⟩ } ∧
    h.length = s.h.length ∧ ∀ k ∈ h, k.valid = false ∧ k.b = 0

/-! ## Bit writer -/

/-- R107: WOPEN starts an empty instance in every state of the writer. -/
def Obligations.WopenStartsFreshInstance : Prop :=
  IssuedAs 0x10 .z (fun _ _ _ _ => .wopen) ∧
  ∀ s : State, exec .wopen s = .next { s with w := ⟨.opened, 0, 0, 0, [], false⟩, resp := some ⟨0, 0⟩ }

/-- R100, R104, R144: WBITS on an open writer with legal operands puts the `n` bits of `value` from bit `p` up, most significant
first, and moves the cursor by `n`; it faults STATE when the writer is not open, before WIDTH when the operands are not legal. -/
def Obligations.WbitsPutsTheSlice : Prop :=
  IssuedAs 0x11 .ab (fun a b _ data => .wbits a.toNat b.toNat data) ∧
  ∀ (s : State) (n p : Nat) (value : Word),
    (s.w.wst ≠ .opened → exec (.wbits n p value) s = .next { s with fsr := s.fsr ||| 0b1000, resp := some ⟨3, 0⟩ }) ∧
    (s.w.wst = .opened → n = 0 ∨ 64 < n + p →
      exec (.wbits n p value) s =
        .next { s with w := { s.w with wst := .faulted }, fsr := s.fsr ||| 0b100, resp := some ⟨2, 0⟩ }) ∧
    (s.w.wst = .opened → 1 ≤ n → n + p ≤ 64 →
      ∃ w, exec (.wbits n p value) s = .next { s with w := w, resp := some ⟨0, 0⟩ } ∧
        Appended s.w w (fieldBits (value.extractLsb' p n) n))

/-- R101: WBIT puts one bit; it faults STATE when the writer is not open. -/
def Obligations.WbitPutsOneBit : Prop :=
  IssuedAs 0x12 .z (fun _ _ _ data => .wbit (data.getLsbD 0)) ∧
  ∀ (s : State) (bit : Bool),
    (s.w.wst ≠ .opened → exec (.wbit bit) s = .next { s with fsr := s.fsr ||| 0b1000, resp := some ⟨3, 0⟩ }) ∧
    (s.w.wst = .opened →
      ∃ w, exec (.wbit bit) s = .next { s with w := w, resp := some ⟨0, 0⟩ } ∧ Appended s.w w [bit])

/-- R101 (a consequence the spec marks as derived): WBIT b has exactly the effect of WBITS 1, 0, b. -/
def Obligations.WbitIsWbitsOfWidthOne : Prop :=
  ∀ (s : State) (data : Word), exec (.wbit (data.getLsbD 0)) s = exec (.wbits 1 0 data) s

/-- R56, R57, R102: WV64 puts the varint of its operand at whatever bit offset the cursor has; on a byte boundary its bytes are
packet bytes. It faults STATE when the writer is not open. -/
def Obligations.Wv64PutsTheVarint : Prop :=
  IssuedAs 0x13 .z (fun _ _ _ data => .wv64 data) ∧
  ∀ (s : State) (value : Word),
    (s.w.wst ≠ .opened → exec (.wv64 value) s = .next { s with fsr := s.fsr ||| 0b1000, resp := some ⟨3, 0⟩ }) ∧
    (s.w.wst = .opened →
      ∃ w bytes, exec (.wv64 value) s = .next { s with w := w, resp := some ⟨0, 0⟩ } ∧ isVarintOf value.toNat bytes ∧
        bytes.length ≤ 10 ∧ Appended s.w w (bytesBits bytes) ∧ w.wbit = s.w.wbit ∧
        (s.w.wbit = 0 → w.snk = s.w.snk ++ bytes))

/-- R103: WV32 puts the varint of its 32-bit operand, in at most five bytes. It faults STATE when the writer is not open. -/
def Obligations.Wv32PutsTheVarint : Prop :=
  IssuedAs 0x14 .z (fun _ _ _ data => .wv32 (data.extractLsb' 0 32)) ∧
  ∀ (s : State) (value : BitVec 32),
    (s.w.wst ≠ .opened → exec (.wv32 value) s = .next { s with fsr := s.fsr ||| 0b1000, resp := some ⟨3, 0⟩ }) ∧
    (s.w.wst = .opened →
      ∃ w bytes, exec (.wv32 value) s = .next { s with w := w, resp := some ⟨0, 0⟩ } ∧ isVarintOf value.toNat bytes ∧
        bytes.length ≤ 5 ∧ Appended s.w w (bytesBits bytes) ∧ w.wbit = s.w.wbit ∧
        (s.w.wbit = 0 → w.snk = s.w.snk ++ bytes))

/-- R105: WALIGN emits the partial byte if there is one, and nothing on a byte boundary; it faults STATE when the writer is not
open. -/
def Obligations.WalignEmitsThePartialByte : Prop :=
  IssuedAs 0x15 .z (fun _ _ _ _ => .walign) ∧
  ∀ s : State,
    (s.w.wst ≠ .opened → exec .walign s = .next { s with fsr := s.fsr ||| 0b1000, resp := some ⟨3, 0⟩ }) ∧
    (s.w.wst = .opened → s.w.wbit = 0 → exec .walign s = .next { s with resp := some ⟨0, 0⟩ }) ∧
    (s.w.wst = .opened → s.w.wbit ≠ 0 →
      exec .walign s = .next { s with
        w := { s.w with snk := s.w.snk ++ [s.w.wcur], wpos := s.w.wpos + 1, wbit := 0, wcur := 0 }, resp := some ⟨0, 0⟩ })

/-- R106: WFLUSH does what WALIGN does, then sets SNKDONE and FLUSHED; it faults STATE when the writer is not open, hence the second
time. -/
def Obligations.WflushEndsThePacket : Prop :=
  IssuedAs 0x16 .z (fun _ _ _ _ => .wflush) ∧
  ∀ s : State,
    (s.w.wst ≠ .opened → exec .wflush s = .next { s with fsr := s.fsr ||| 0b1000, resp := some ⟨3, 0⟩ }) ∧
    (s.w.wst = .opened →
      ∃ t u v, exec .walign s = .next t ∧ exec .wflush s = .next u ∧
        u = { t with w := { t.w with snkDone := true, wst := .flushed } } ∧ t.resp = some ⟨0, 0⟩ ∧
        exec .wflush u = .next v ∧ v = { u with fsr := u.fsr ||| 0b1000, resp := some ⟨3, 0⟩ })

/-- R62, R66, R105, R106 (derived in the spec): aligning and flushing append `(8 - WBIT) mod 8` zero bits to the stream and end on a
byte boundary, where every bit written is in SNK. -/
def Obligations.AligningPadsWithZeroBits : Prop :=
  ∀ (s : State) (i : Instr), i = .walign ∨ i = .wflush → s.w.wst = .opened → s.w.padded →
    ∃ t, exec i s = .next t ∧ t.resp = some ⟨0, 0⟩ ∧ t.w.wbit = 0 ∧
      bytesBits t.w.snk = s.w.bits ++ List.replicate ((8 - s.w.wbit.toNat) % 8) false ∧
      t.w.snk.length = (s.w.bits.length + 7) / 8

/-! ## Bit reader -/

/-- R115: ROPEN binds the packet the environment presents and stands at its first bit, in every state of the reader. -/
def Obligations.RopenBindsThePacket : Prop :=
  IssuedAs 0x20 .z (fun _ _ _ _ => .ropen) ∧
  ∀ s : State, exec .ropen s = .next { s with r := ⟨.opened, 0, 0, 0, s.offer⟩, resp := some ⟨0, 0⟩ }

/-- R110, R111, R143: RBITS on an open reader answers the number whose binary digits are the next `n` bits and moves the cursor by
`n`; else it faults STATE, WIDTH or EOS, in this order, with the cursor unchanged. -/
def Obligations.RbitsReadsTheNextBits : Prop :=
  IssuedAs 0x21 .a (fun a _ _ _ => .rbits a.toNat) ∧
  ∀ (s : State) (n : Nat),
    (s.r.rst ≠ .opened → exec (.rbits n) s = .next { s with fsr := s.fsr ||| 0b1000, resp := some ⟨3, 0⟩ }) ∧
    (s.r.rst = .opened → n = 0 ∨ 64 < n →
      exec (.rbits n) s =
        .next { s with r := { s.r with rst := .faulted }, fsr := s.fsr ||| 0b100, resp := some ⟨2, 0⟩ }) ∧
    (s.r.rst = .opened → 1 ≤ n → n ≤ 64 → 8 * s.r.src.length < s.r.position + n →
      exec (.rbits n) s =
        .next { s with r := { s.r with rst := .faulted }, fsr := s.fsr ||| 0b10000, resp := some ⟨4, 0⟩ }) ∧
    (s.r.rst = .opened → s.r.Inv → 1 ≤ n → n ≤ 64 → s.r.position + n ≤ 8 * s.r.src.length →
      ∃ r, exec (.rbits n) s =
          .next { s with r := r, resp := some ⟨0, BitVec.ofNat 64 (bitsValue (s.r.rest.take n))⟩ } ∧
        r.position = s.r.position + n ∧ r.src = s.r.src ∧ r.rst = .opened ∧ r.Inv)

/-- What R112 and R113 say of a varint read of `width` bits in at most `groups` groups: a complete varint that fits is answered and
the cursor moves past it, padding or not; EOS when the packet ends within a varint the type allows; VARINT when the last group the
type allows has bits beyond the width or its flag set. A fault leaves the cursor where it was. -/
def VarintRead (i : Instr) (width groups : Nat) : Prop :=
  ∀ s : State,
    (s.r.rst ≠ .opened → exec i s = .next { s with fsr := s.fsr ||| 0b1000, resp := some ⟨3, 0⟩ }) ∧
    (∀ (bytes : List Byte) (tail : List Bool), s.r.rst = .opened → s.r.Inv → s.r.rest = bytesBits bytes ++ tail →
      isVarint bytes → bytes.length ≤ groups → groupsValue bytes < 2 ^ width →
        ∃ r, exec i s = .next { s with r := r, resp := some ⟨0, BitVec.ofNat 64 (groupsValue bytes)⟩ } ∧
          r.position = s.r.position + 8 * bytes.length ∧ r.src = s.r.src ∧ r.rst = .opened ∧ r.Inv) ∧
    (∀ (bytes : List Byte) (tail : List Bool), s.r.rst = .opened → s.r.Inv → s.r.rest = bytesBits bytes ++ tail →
      allContinue bytes → bytes.length < groups → tail.length < 8 →
        exec i s = .next { s with r := { s.r with rst := .faulted }, fsr := s.fsr ||| 0b10000, resp := some ⟨4, 0⟩ }) ∧
    (∀ (bytes : List Byte) (last : Byte) (tail : List Bool), s.r.rst = .opened → s.r.Inv →
      s.r.rest = bytesBits (bytes ++ [last]) ++ tail → allContinue bytes → bytes.length + 1 = groups →
      2 ^ (width - 7 * (groups - 1)) ≤ last.toNat % 128 ∨ last.getLsbD 7 = true →
        exec i s = .next { s with r := { s.r with rst := .faulted }, fsr := s.fsr ||| 0b100000, resp := some ⟨5, 0⟩ })

/-- R112: RV64. -/
def Obligations.Rv64ReadsTheVarint : Prop := IssuedAs 0x23 .z (fun _ _ _ _ => .rv64) ∧ VarintRead .rv64 64 10

/-- R113: RV32. -/
def Obligations.Rv32ReadsTheVarint : Prop := IssuedAs 0x24 .z (fun _ _ _ _ => .rv32) ∧ VarintRead .rv32 32 5

/-- R114: RALIGN discards the rest of the partial byte if there is one, and nothing on a boundary; it faults STATE when the reader
is not open. -/
def Obligations.RalignSkipsThePartialByte : Prop :=
  IssuedAs 0x25 .z (fun _ _ _ _ => .ralign) ∧
  ∀ s : State,
    (s.r.rst ≠ .opened → exec .ralign s = .next { s with fsr := s.fsr ||| 0b1000, resp := some ⟨3, 0⟩ }) ∧
    (s.r.rst = .opened → s.r.rbit = 0 → exec .ralign s = .next { s with resp := some ⟨0, 0⟩ }) ∧
    (s.r.rst = .opened → s.r.rbit ≠ 0 →
      exec .ralign s = .next { s with r := { s.r with rpos := s.r.rpos + 1, rbit := 0, rcur := 0 }, resp := some ⟨0, 0⟩ })

/-- R117 (derived in the spec): a reader bound to the packet of a flushed writer and driven by the mirrored commands answers what was
written, each value truncated to its field, with no fault, whatever sequence of legal fields was written. -/
def Obligations.RoundTripOfFields : Prop :=
  ∀ (s : State) (fields : List FieldWrite), (∀ f ∈ fields, f.legal) →
    ∃ t, runCommands (.wopen :: fields.map FieldWrite.command ++ [.wflush]) s =
        some (List.replicate (fields.length + 2) ⟨0, 0⟩, t) ∧
      ∀ u : State, u.offer = t.w.snk → t.w.snk.length < 2 ^ 61 →
        ∃ v, runCommands (.ropen :: fields.map FieldWrite.mirror) u =
            some (⟨0, 0⟩ :: fields.map (fun f => ⟨0, f.value⟩), v) ∧
          v.r.rest.length < 8 ∧ ∀ b ∈ v.r.rest, b = false

/-! ## Bit primitives -/

/-- R120: POPCNT answers the number of bits of its operand that are 1 and changes nothing else. -/
def Obligations.PopcntCountsOnes : Prop :=
  IssuedAs 0x30 .z (fun _ _ _ data => .popcnt data) ∧
  ∀ (s : State) (x : Word),
    exec (.popcnt x) s = .next { s with
      resp := some ⟨0, BitVec.ofNat 64 (Finset.univ.filter (fun i : Fin 64 => x.getLsbD i = true)).card⟩ }

/-- R121: CLZ answers 63 less the highest index that holds a 1, and 64 for 0 (the value at 0 the spec marks as general knowledge,
D18), and changes nothing else. -/
def Obligations.ClzCountsLeadingZeros : Prop :=
  IssuedAs 0x31 .z (fun _ _ _ data => .clz data) ∧
  ∀ (s : State) (x : Word),
    (x = 0 → exec (.clz x) s = .next { s with resp := some ⟨0, 64⟩ }) ∧
    (x ≠ 0 → ∃ i, i < 64 ∧ x.getLsbD i = true ∧ (∀ j, i < j → x.getLsbD j = false) ∧
      exec (.clz x) s = .next { s with resp := some ⟨0, BitVec.ofNat 64 (63 - i)⟩ })

/-- R122: CTZ answers the lowest index that holds a 1, and 64 for 0 (the value at 0 the spec marks as general knowledge, D18), and
changes nothing else. -/
def Obligations.CtzCountsTrailingZeros : Prop :=
  IssuedAs 0x32 .z (fun _ _ _ data => .ctz data) ∧
  ∀ (s : State) (x : Word),
    (x = 0 → exec (.ctz x) s = .next { s with resp := some ⟨0, 64⟩ }) ∧
    (x ≠ 0 → ∃ i, i < 64 ∧ x.getLsbD i = true ∧ (∀ j, j < i → x.getLsbD j = false) ∧
      exec (.ctz x) s = .next { s with resp := some ⟨0, BitVec.ofNat 64 i⟩ })

/-- R123: NLPO2 faults RANGE for a negative operand and for one of 2^30 or more, changing FSR[7] alone; else it answers 2^k for the
least k with 2^k above the operand. -/
def Obligations.Nlpo2IsTheNextPower : Prop :=
  IssuedAs 0x33 .z (fun _ _ _ data => .nlpo2 (data.extractLsb' 0 32)) ∧
  ∀ (s : State) (x : BitVec 32),
    (x.toInt < 0 ∨ 2 ^ 30 ≤ x.toInt →
      exec (.nlpo2 x) s = .next { s with fsr := s.fsr ||| 0b10000000, resp := some ⟨7, 0⟩ }) ∧
    (0 ≤ x.toInt → x.toInt < 2 ^ 30 →
      ∃ k : Nat, x.toInt < 2 ^ k ∧ (∀ j : Nat, x.toInt < 2 ^ j → k ≤ j) ∧
        exec (.nlpo2 x) s = .next { s with resp := some ⟨0, BitVec.ofNat 64 (2 ^ k)⟩ })

/-- R124: ISPOW2 answers 1 when its operand has at most one bit set, else 0, and changes nothing else. -/
def Obligations.Ispow2TestsForOneBit : Prop :=
  IssuedAs 0x34 .z (fun _ _ _ data => .ispow2 data) ∧
  ∀ (s : State) (x : Word),
    exec (.ispow2 x) s = .next { s with
      resp := some ⟨0, if (Finset.univ.filter (fun i : Fin 64 => x.getLsbD i = true)).card ≤ 1 then 1 else 0⟩ }

/-- R125 (byte reversal, which the spec marks as general knowledge, G4): BSWAP32 answers the four bytes in reverse order,
zero-extended. -/
def Obligations.Bswap32ReversesBytes : Prop :=
  IssuedAs 0x35 .z (fun _ _ _ data => .bswap32 (data.extractLsb' 0 32)) ∧
  ∀ (s : State) (x : BitVec 32), ∃ y : BitVec 32,
    exec (.bswap32 x) s = .next { s with resp := some ⟨0, y.zeroExtend 64⟩ } ∧
    ∀ j, j < 4 → y.extractLsb' (8 * j) 8 = x.extractLsb' (8 * (3 - j)) 8

/-- R126 (byte reversal, which the spec marks as general knowledge, G5): BSWAP64 answers the eight bytes in reverse order. -/
def Obligations.Bswap64ReversesBytes : Prop :=
  IssuedAs 0x36 .z (fun _ _ _ data => .bswap64 data) ∧
  ∀ (s : State) (x : Word), ∃ y : Word,
    exec (.bswap64 x) s = .next { s with resp := some ⟨0, y⟩ } ∧
    ∀ j, j < 8 → y.extractLsb' (8 * j) 8 = x.extractLsb' (8 * (7 - j)) 8

/-- R127 (derived in the spec): the laws that tie the primitives together. And R125, R126, their corner cases: swapping the bytes
twice gives the operand back (byte reversal is marked general knowledge in the spec, G4 and G5). -/
def Obligations.PrimitivesObeyTheLaws : Prop :=
  (∀ x : Word, leadingZeros x + bitlength x.toNat = 64) ∧
  (∀ x : Word, x ≠ 0 → leadingZeros x + trailingZeros x + 1 ≤ 64 ∧
    (leadingZeros x + trailingZeros x + 1 = 64 ↔ popCount x = 1)) ∧
  (∀ x : Word, isPowerOfTwo x = true ↔ popCount x ≤ 1) ∧
  (∀ x : BitVec 32, x.toNat < 2 ^ 30 → isPowerOfTwo (nextPower x) = true ∧ nextPower x ≠ 0 ∧ x.toNat < (nextPower x).toNat ∧
    (1 ≤ x.toNat → (nextPower x).toNat ≤ 2 * x.toNat) ∧ (x = 0 → nextPower x = 1)) ∧
  (∀ x : BitVec 32, byteSwap32 (byteSwap32 x) = x) ∧ (∀ x : Word, byteSwap64 (byteSwap64 x) = x)

/-! ## Sketches -/

/-- R130, R135: HNEW makes a valid sketch of the given `bValue` whose registers are all 0, in a free or an occupied slot, and leaves
the other slots alone; it faults INDEX for a slot the block does not have, then RANGE for `b` outside 4 to 14. -/
def Obligations.HnewMakesAZeroedSketch : Prop :=
  IssuedAs 0x40 .ab (fun a b _ _ => .hnew a.toNat b.toNat) ∧
  ∀ (s : State) (i b : Nat),
    (s.h.length ≤ i → exec (.hnew i b) s = .next { s with fsr := s.fsr ||| 0b1000000, resp := some ⟨6, 0⟩ }) ∧
    (i < s.h.length → b < 4 ∨ 14 < b →
      exec (.hnew i b) s = .next { s with fsr := s.fsr ||| 0b10000000, resp := some ⟨7, 0⟩ }) ∧
    (i < s.h.length → 4 ≤ b → b ≤ 14 →
      ∃ k, exec (.hnew i b) s = .next { s with h := s.h.set i k, resp := some ⟨0, 0⟩ } ∧ k.valid = true ∧ k.b.toNat = b ∧
        ∀ j, k.reg.read j = 0)

/-- R131, R135: HGET answers the register at the index and writes no state; it faults INDEX for a slot the block does not have, STATE
for a slot without a sketch, INDEX for a bucket index of 2^B or more. -/
def Obligations.HgetReadsTheRegister : Prop :=
  IssuedAs 0x41 .a (fun a _ _ data => .hget a.toNat data) ∧
  ∀ (s : State) (i : Nat) (idx : Word),
    (s.h.length ≤ i → exec (.hget i idx) s = .next { s with fsr := s.fsr ||| 0b1000000, resp := some ⟨6, 0⟩ }) ∧
    ∀ k, s.h[i]? = some k →
      (k.valid = false → exec (.hget i idx) s = .next { s with fsr := s.fsr ||| 0b1000, resp := some ⟨3, 0⟩ }) ∧
      (k.valid = true → 2 ^ k.b.toNat ≤ idx.toNat →
        exec (.hget i idx) s = .next { s with fsr := s.fsr ||| 0b1000000, resp := some ⟨6, 0⟩ }) ∧
      (k.valid = true → idx.toNat < 2 ^ k.b.toNat →
        exec (.hget i idx) s = .next { s with resp := some ⟨0, BitVec.ofNat 64 (k.reg.read idx.toNat).toNat⟩ })

/-- R132, R135: HSET writes the register at the index and nothing else: the other registers of the slot read as before, the other
slots are the same; it faults as HGET does. -/
def Obligations.HsetWritesTheRegister : Prop :=
  IssuedAs 0x42 .ac (fun a _ c data => .hset a.toNat c data) ∧
  ∀ (s : State) (i : Nat) (v : Byte) (idx : Word),
    (s.h.length ≤ i → exec (.hset i v idx) s = .next { s with fsr := s.fsr ||| 0b1000000, resp := some ⟨6, 0⟩ }) ∧
    ∀ k, s.h[i]? = some k →
      (k.valid = false → exec (.hset i v idx) s = .next { s with fsr := s.fsr ||| 0b1000, resp := some ⟨3, 0⟩ }) ∧
      (k.valid = true → 2 ^ k.b.toNat ≤ idx.toNat →
        exec (.hset i v idx) s = .next { s with fsr := s.fsr ||| 0b1000000, resp := some ⟨6, 0⟩ }) ∧
      (k.valid = true → Memory.wf k.reg → idx.toNat < 2 ^ k.b.toNat →
        ∃ m, exec (.hset i v idx) s = .next { s with h := s.h.set i { k with reg := m }, resp := some ⟨0, 0⟩ } ∧
          Memory.wf m ∧ m.read idx.toNat = v ∧ ∀ j, j ≠ idx.toNat → m.read j = k.reg.read j)

/-- R133, R135: HRST zeroes the registers of a sketch and leaves VALID, B and the other slots; it faults INDEX, then STATE. -/
def Obligations.HrstZeroesTheRegisters : Prop :=
  IssuedAs 0x43 .a (fun a _ _ _ => .hrst a.toNat) ∧
  ∀ (s : State) (i : Nat),
    (s.h.length ≤ i → exec (.hrst i) s = .next { s with fsr := s.fsr ||| 0b1000000, resp := some ⟨6, 0⟩ }) ∧
    ∀ k, s.h[i]? = some k →
      (k.valid = false → exec (.hrst i) s = .next { s with fsr := s.fsr ||| 0b1000, resp := some ⟨3, 0⟩ }) ∧
      (k.valid = true →
        ∃ m, exec (.hrst i) s = .next { s with h := s.h.set i { k with reg := m }, resp := some ⟨0, 0⟩ } ∧
          ∀ j, m.read j = 0)

/-- R134, R135: HAGG makes each register of the destination the unsigned maximum of its own and the source's and answers 0; on a
mismatch of B it merges nothing, sets HSR.MM and answers 1; it faults INDEX for either slot number, then STATE for either slot. -/
def Obligations.HaggMergesByMaximum : Prop :=
  IssuedAs 0x44 .ab (fun a b _ _ => .hagg a.toNat b.toNat) ∧
  ∀ (s : State) (d i : Nat),
    (s.h.length ≤ d ∨ s.h.length ≤ i →
      exec (.hagg d i) s = .next { s with fsr := s.fsr ||| 0b1000000, resp := some ⟨6, 0⟩ }) ∧
    ∀ kd ki, s.h[d]? = some kd → s.h[i]? = some ki →
      (kd.valid = false ∨ ki.valid = false →
        exec (.hagg d i) s = .next { s with fsr := s.fsr ||| 0b1000, resp := some ⟨3, 0⟩ }) ∧
      (kd.valid = true → ki.valid = true → kd.b ≠ ki.b →
        exec (.hagg d i) s = .next { s with mm := true, resp := some ⟨0, 1⟩ }) ∧
      (kd.valid = true → ki.valid = true → kd.b = ki.b → Memory.wf kd.reg → Memory.wf ki.reg →
        ∃ m, exec (.hagg d i) s = .next { s with h := s.h.set d { kd with reg := m }, resp := some ⟨0, 0⟩ } ∧
          Memory.wf m ∧ ∀ j, (m.read j).toNat = max (kd.reg.read j).toNat (ki.reg.read j).toNat)

/-- R136: merging A with C and merging an equal C with an equal A give equal sketches. -/
def Obligations.MergeIsCommutative : Prop :=
  ∀ (s : State) (a a' c c' : Nat) (x y : Sketch), s.Inv → s.h[a]? = some x → s.h[a']? = some x → s.h[c]? = some y →
    s.h[c']? = some y → x.valid = true → y.valid = true → x.b = y.b →
      ∃ t u k, exec (.hagg a c) s = .next t ∧ exec (.hagg c' a') t = .next u ∧ t.resp = some ⟨0, 0⟩ ∧
        u.resp = some ⟨0, 0⟩ ∧ u.h[a]? = some k ∧ u.h[c']? = some k

/-- R134, R136: merging a sketch with itself or with an equal one leaves it as it was, and a second merge of the same slots changes
nothing more. -/
def Obligations.MergeIsIdempotent : Prop :=
  ∀ (s : State) (d i : Nat) (x y : Sketch), s.Inv → s.h[d]? = some x → s.h[i]? = some y → x.valid = true → y.valid = true →
    x.b = y.b →
      (x = y → exec (.hagg d i) s = .next { s with resp := some ⟨0, 0⟩ }) ∧
      ∃ t, exec (.hagg d i) s = .next t ∧ t.resp = some ⟨0, 0⟩ ∧ exec (.hagg d i) t = .next t

/-- R136 (derived in the spec): the merge of register arrays is associative. -/
def Obligations.MergeIsAssociative : Prop :=
  ∀ x y z : Memory, Memory.wf x → Memory.wf y → Memory.wf z → (x.merge y).merge z = x.merge (y.merge z)

/-! ## Faults and flags -/

/-- R144: a command that faults sets FSR[code], spoils the writer on a writer's WIDTH and the reader on a reader's WIDTH, EOS or
VARINT, answers the code with RDATA 0, and changes nothing else (the word itself is taken off the inputs). -/
def Obligations.FaultsArePrecise : Prop :=
  ∀ (s t : State) (cmd : CmdWord) (data : Word) (rest : List Input) (p : Response),
    s.inputs = .command cmd data :: rest → step s = .next t → t.resp = some p → p.status ≠ 0 →
      ∃ c : FaultCode, p = ⟨c.code, 0⟩ ∧
        t = { s with
          inputs := rest
          fsr := s.fsr ||| (1#8 <<< c.code.toNat)
          w := if unitOfWord cmd data = .writer ∧ c = .width then { s.w with wst := .faulted } else s.w
          r := if unitOfWord cmd data = .reader ∧ (c = .width ∨ c = .eos ∨ c = .varint) then { s.r with rst := .faulted }
            else s.r
          resp := some p }

/-- R141: a fault other than ILLEGAL is one of those the table allows the command that raised it; ILLEGAL comes of an illegal word or
of RDSR; and every fault the table allows a command is one the command raises in some state. -/
def Obligations.FaultTableIsExact : Prop :=
  (∀ (s t : State) (cmd : CmdWord) (data : Word) (rest : List Input) (c : FaultCode),
    s.inputs = .command cmd data :: rest → step s = .next t → t.resp = some ⟨c.code, 0⟩ →
      (c = .illegal ∧ ∃ e, decode cmd data = .error e) ∨ ∃ i, decode cmd data = .ok i ∧ c ∈ faultsOf i.op) ∧
  ∀ (o : Op) (c : FaultCode), c ∈ faultsOf o →
    ∃ (i : Instr) (s t : State), i.op = o ∧ exec i s = .next t ∧ t.resp = some ⟨c.code, 0⟩

/-- R34: FSR gains the bit of the code a command ends with, keeps all others, and nothing but SRST and reset clears one. -/
def Obligations.FsrIsSticky : Prop :=
  ∀ (i : Instr) (s t : State), exec i s = .next t →
    (i = .srst → t.fsr = 0) ∧
    (i ≠ .srst → ∃ p, t.resp = some p ∧
      t.fsr = if p.status = 0 then s.fsr else s.fsr ||| (1#8 <<< p.status.toNat))

/-- R33: HSR.MM is set by HAGG on valid sketches of different B and by nothing else, and only SRST and reset clear it. -/
def Obligations.MismatchFlagIsSticky : Prop :=
  ∀ (i : Instr) (s t : State), exec i s = .next t →
    (i = .srst → t.mm = false) ∧
    (i ≠ .srst → (t.mm = true ↔ s.mm = true ∨
      ∃ d n kd kn, i = .hagg d n ∧ s.h[d]? = some kd ∧ s.h[n]? = some kn ∧ kd.valid = true ∧ kn.valid = true ∧ kd.b ≠ kn.b))

/-- R70, R171: every word the host can issue is answered with one response, in every state. That it takes one input off the list and
leaves the presented packet as it is, is the model's choice (log entries 1, 4 and 12). -/
def Obligations.EveryWordIsAnswered : Prop :=
  ∀ (s : State) (cmd : CmdWord) (data : Word) (rest : List Input), s.inputs = .command cmd data :: rest →
    ∃ t p, step s = .next t ∧ t.resp = some p ∧ t.inputs = rest ∧ t.offer = s.offer

/-! ## The machine as a whole -/

/-- R39 (derived in the spec): a command changes the state of its own unit only. -/
def Obligations.UnitsChangeOnlyTheirState : Prop :=
  ∀ (i : Instr) (s t : State), exec i s = .next t → i ≠ .srst →
    (unitOf i.op ≠ .writer → t.w = s.w) ∧ (unitOf i.op ≠ .reader → t.r = s.r) ∧
    (unitOf i.op ≠ .sketch → t.h = s.h ∧ t.mm = s.mm) ∧ t.inputs = s.inputs ∧ t.offer = s.offer

/-- R39 (derived in the spec): what a command does and answers depends on the state of its own unit only (and on the presented packet
for ROPEN), so units may be interleaved. -/
def Obligations.UnitsObserveOnlyTheirState : Prop :=
  ∀ (i : Instr) (s s' t : State), exec i s = .next t → unitOf i.op ≠ .system →
    (unitOf i.op = .writer → s'.w = s.w) → (unitOf i.op = .reader → s'.r = s.r ∧ s'.offer = s.offer) →
    (unitOf i.op = .sketch → s'.h = s.h) →
      ∃ t', exec i s' = .next t' ∧ t'.resp = t.resp ∧ (unitOf i.op = .writer → t'.w = t.w) ∧
        (unitOf i.op = .reader → t'.r = t.r) ∧ (unitOf i.op = .sketch → t'.h = t.h)

/-- R27, R38, R51, R52: no command changes an emitted byte or the source packet, except that WOPEN and SRST empty SNK, and ROPEN and
SRST replace SRC. -/
def Obligations.PacketsAreFixed : Prop :=
  ∀ (i : Instr) (s t : State), exec i s = .next t →
    (i ≠ .wopen → i ≠ .srst → ∃ l, t.w.snk = s.w.snk ++ l) ∧
    (i = .wopen ∨ i = .srst → t.w.snk = []) ∧
    (i ≠ .ropen → i ≠ .srst → t.r.src = s.r.src)

/-- R53, R134: a sketch command changes no slot but its target: the source slot of a merge among them. -/
def Obligations.SlotsAreDisjoint : Prop :=
  ∀ (i : Instr) (s t : State) (n : Nat), exec i s = .next t → i ≠ .srst → targetSlot i ≠ some n → t.h[n]? = s.h[n]?

/-- R30, R36: no step changes the number of slots. -/
def Obligations.SlotCountIsFixed : Prop :=
  ∀ s t : State, step s = .next t → t.h.length = s.h.length

/-- R25, R27, R29, R31, R34, R38, R140: the invariant holds after reset. -/
def Obligations.ResetMeetsTheInvariant : Prop := State.reset.Inv

/-- R25, R27, R29, R31, R34, R38, R140: every step keeps the invariant: the unfilled bits of the partial byte are 0, emitted bytes are
counted, RCUR is the byte under the cursor, the cursor stands in the packet, B is 4 to 14 in a valid slot, the register memory is
canonical and in range, FSR bit 0 is 0, a response code is at most 7. -/
def Obligations.StepKeepsTheInvariant : Prop :=
  ∀ s t : State, s.Inv → step s = .next t → t.Inv
end

