-- ==== Sys2Proof/Laws/Decode.lean ====
section
/-! SUPPORT. Laws of the opcode map and of command words (spec rules R71, R72, R76, R77). -/

namespace Sys2Proof

theorem Op.mem_all (o : Op) : o ∈ Op.all := by cases o <;> decide

theorem Op.code_injective (o o' : Op) (h : o.code = o'.code) : o = o' := by
  revert h
  cases o <;> cases o' <;> decide

/-- An `OP` value names the one command that has it. -/
theorem opOf_eq_some (c : BitVec 8) (o : Op) : opOf c = some o ↔ o.code = c := by
  unfold opOf
  constructor
  · intro h
    simpa using List.find?_some h
  · intro h
    cases hf : Op.all.find? (fun o => o.code == c) with
    | none =>
      have := List.find?_eq_none.mp hf o (Op.mem_all o)
      simp [h] at this
    | some o' =>
      have : o'.code = c := by simpa using List.find?_some hf
      rw [Op.code_injective o' o (this.trans h.symm)]

theorem opOf_code (o : Op) : opOf o.code = some o := (opOf_eq_some _ _).mpr rfl

/-- The fields of a word made of four fields are those fields. -/
@[simp] theorem opField_cmdWord (o a b c : BitVec 8) : opField (cmdWord o a b c) = o := by
  apply BitVec.eq_of_getLsbD_eq
  intro j hj
  simp only [opField, cmdWord, BitVec.getLsbD_extractLsb', BitVec.getLsbD_append]
  have h0 : ¬ 24 + j < 8 := by omega
  have h1 : ¬ 24 + j - 8 < 8 := by omega
  have h2 : ¬ 24 + j - 8 - 8 < 8 := by omega
  have h3 : 24 + j - 8 - 8 - 8 = j := by omega
  simp [hj, h0, h1, h2, h3]

@[simp] theorem aField_cmdWord (o a b c : BitVec 8) : aField (cmdWord o a b c) = a := by
  apply BitVec.eq_of_getLsbD_eq
  intro j hj
  simp only [aField, cmdWord, BitVec.getLsbD_extractLsb', BitVec.getLsbD_append]
  have h0 : ¬ 16 + j < 8 := by omega
  have h1 : ¬ 16 + j - 8 < 8 := by omega
  have h2 : 16 + j - 8 - 8 = j := by omega
  simp [hj, h0, h1, h2]

@[simp] theorem bField_cmdWord (o a b c : BitVec 8) : bField (cmdWord o a b c) = b := by
  apply BitVec.eq_of_getLsbD_eq
  intro j hj
  simp only [bField, cmdWord, BitVec.getLsbD_extractLsb', BitVec.getLsbD_append]
  simp [hj]

@[simp] theorem cField_cmdWord (o a b c : BitVec 8) : cField (cmdWord o a b c) = c := by
  apply BitVec.eq_of_getLsbD_eq
  intro j hj
  simp only [cField, cmdWord, BitVec.getLsbD_extractLsb', BitVec.getLsbD_append]
  simp [hj]

/-- A word is its four fields. -/
theorem cmdWord_of_fields (w : CmdWord) : cmdWord (opField w) (aField w) (bField w) (cField w) = w := by
  apply BitVec.eq_of_getLsbD_eq
  intro j hj
  simp only [opField, aField, bField, cField, cmdWord, BitVec.getLsbD_extractLsb', BitVec.getLsbD_append]
  by_cases h0 : j < 8
  · simp [h0]
  · by_cases h1 : j < 16
    · have : j - 8 < 8 := by omega
      simp [h0, this]
      congr 1
      omega
    · by_cases h2 : j < 24
      · have h3 : ¬ j - 8 < 8 := by omega
        have h4 : j - 8 - 8 < 8 := by omega
        simp [h0, h3, h4]
        congr 1
        omega
      · have h3 : ¬ j - 8 < 8 := by omega
        have h4 : ¬ j - 8 - 8 < 8 := by omega
        have h5 : j - 8 - 8 - 8 < 8 := by omega
        simp [h0, h3, h4, h5]
        congr 1
        omega

theorem cmdWord_and (o a b c o' a' b' c' : BitVec 8) :
    cmdWord o a b c &&& cmdWord o' a' b' c' = cmdWord (o &&& o') (a &&& a') (b &&& b') (c &&& c') := by
  apply BitVec.eq_of_getLsbD_eq
  intro j _
  simp only [cmdWord, BitVec.getLsbD_and, BitVec.getLsbD_append]
  split_ifs <;> rfl

theorem cmdWord_injective (o a b c o' a' b' c' : BitVec 8) (h : cmdWord o a b c = cmdWord o' a' b' c') :
    o = o' ∧ a = a' ∧ b = b' ∧ c = c' := by
  refine ⟨?_, ?_, ?_, ?_⟩
  · simpa using congrArg opField h
  · simpa using congrArg aField h
  · simpa using congrArg bField h
  · simpa using congrArg cField h

/-- The mask test of R72 says: the `OP` is the command's, and the unused fields are 0. -/
theorem mask_match (o : Op) (w : CmdWord) :
    (w &&& o.format.mask = o.matchWord) ↔ opField w = o.code ∧ unusedZero o.format (aField w) (bField w) (cField w) := by
  have hm : o.matchWord = cmdWord o.code 0 0 0 := by cases o <;> rfl
  have h0 : ∀ x : BitVec 8, x &&& 0 = 0 := fun x => BitVec.and_zero
  have hz : ∀ x : BitVec 8, x &&& 0xFF = x := fun x => by
    apply BitVec.eq_of_getLsbD_eq
    intro j hj
    have : ∀ i, i < 8 → (0xFF : BitVec 8).getLsbD i = true := by decide
    rw [BitVec.getLsbD_and, this j hj, Bool.and_true]
  conv_lhs => rw [← cmdWord_of_fields w, hm]
  cases hf : o.format
  · have : Format.mask .z = cmdWord 0xFF 0xFF 0xFF 0xFF := rfl
    rw [this, cmdWord_and, hz, hz, hz, hz]
    exact ⟨fun h => by have := cmdWord_injective _ _ _ _ _ _ _ _ h; exact this, fun h => by rw [h.1, h.2.1, h.2.2.1, h.2.2.2]⟩
  · have : Format.mask .a = cmdWord 0xFF 0 0xFF 0xFF := rfl
    rw [this, cmdWord_and, hz, hz, hz, h0]
    exact ⟨fun h => by have := cmdWord_injective _ _ _ _ _ _ _ _ h; exact ⟨this.1, this.2.2⟩, fun h => by rw [h.1, h.2.1, h.2.2]⟩
  · have : Format.mask .ab = cmdWord 0xFF 0 0 0xFF := rfl
    rw [this, cmdWord_and, hz, hz, h0, h0]
    exact ⟨fun h => by have := cmdWord_injective _ _ _ _ _ _ _ _ h; exact ⟨this.1, this.2.2.2⟩, fun h => by rw [h.1, h.2]⟩
  · have : Format.mask .ac = cmdWord 0xFF 0 0xFF 0 := rfl
    rw [this, cmdWord_and, hz, hz, h0, h0]
    exact ⟨fun h => by have := cmdWord_injective _ _ _ _ _ _ _ _ h; exact ⟨this.1, this.2.2.1⟩, fun h => by rw [h.1, h.2]⟩

/-- What the decoder does: reserved, a field not 0, or the command with its operands. -/
theorem decode_cases (cmd : CmdWord) (data : Word) :
    ((∀ o : Op, o.code ≠ opField cmd) ∧ decode cmd data = .error .reservedOp) ∨
    (∃ o : Op, o.code = opField cmd ∧ ¬ unusedZero o.format (aField cmd) (bField cmd) (cField cmd) ∧
      decode cmd data = .error .fieldNotZero) ∨
    (∃ o : Op, o.code = opField cmd ∧ unusedZero o.format (aField cmd) (bField cmd) (cField cmd) ∧
      decode cmd data = .ok (o.build (aField cmd) (bField cmd) (cField cmd) data)) := by
  unfold decode
  cases ho : opOf (opField cmd) with
  | none =>
    refine .inl ⟨fun o h => ?_, rfl⟩
    rw [← h, opOf_code] at ho
    exact absurd ho (by simp)
  | some o =>
    have hc := (opOf_eq_some _ _).mp ho
    by_cases hm : cmd &&& o.format.mask = o.matchWord
    · exact .inr (.inr ⟨o, hc, ((mask_match o cmd).mp hm).2, by simp [hm]⟩)
    · exact .inr (.inl ⟨o, hc, fun hu => hm ((mask_match o cmd).mpr ⟨hc.symm, hu⟩), by simp [hm]⟩)

end Sys2Proof
end

