-- ==== Sys2Proof/Laws/Memory.lean ====
section
/-! SUPPORT. Laws of memory: a read after a write, and that every operation keeps the canonical form (spec rule R53). -/

namespace Sys2Proof.Machine

@[simp] theorem Memory.wf_nil : Memory.wf [] := ⟨List.Pairwise.nil, fun _ h => absurd h (by simp)⟩

/-- One listed byte that is not 0 is in canonical form. -/
theorem Memory.wf_single (a : Nat) (v : Byte) (h : v ≠ 0) : Memory.wf [(a, v)] :=
  ⟨List.pairwise_singleton _ _, fun c hc => by rw [List.mem_singleton.mp hc]; exact h⟩

@[simp] theorem Memory.read_nil (a : Nat) : Memory.read [] a = 0 := rfl

@[simp] theorem Memory.read_cons (b : Nat) (v : Byte) (m : Memory) (a : Nat) :
    Memory.read ((b, v) :: m) a = if b = a then v else Memory.read m a := rfl

/-- An address below every listed one reads as 0. -/
theorem Memory.read_of_unlisted : ∀ (m : Memory) (a : Nat), (∀ c ∈ m, c.1 ≠ a) → m.read a = 0
  | [], _, _ => rfl
  | (b, v) :: m, a, h => by
    have hb : b ≠ a := h (b, v) (by simp)
    simp [hb, Memory.read_of_unlisted m a (fun c hc => h c (by simp [hc]))]

/-- A write leaves every other address alone. -/
theorem Memory.read_write_other : ∀ (m : Memory) (a b : Nat) (v : Byte), b ≠ a → (m.write a v).read b = m.read b
  | [], a, b, v, h => by
    unfold Memory.write
    split <;> simp [Ne.symm h]
  | (c, u) :: m, a, b, v, h => by
    unfold Memory.write
    split
    · split <;> simp [Ne.symm h]
    · split
      · rename_i hac
        subst hac
        split <;> simp [Ne.symm h]
      · simp [Memory.read_write_other m a b v h]

/-- A write is read back. -/
theorem Memory.read_write_same : ∀ (m : Memory) (a : Nat) (v : Byte), Memory.wf m → (m.write a v).read a = v
  | [], a, v, _ => by
    unfold Memory.write
    split <;> simp_all
  | (c, u) :: m, a, v, h => by
    obtain ⟨hs, hn⟩ := h
    rw [List.pairwise_cons] at hs
    unfold Memory.write
    split
    · rename_i hac
      split
      · rename_i hv
        have h2 : Memory.read m a = 0 := Memory.read_of_unlisted m a (fun d hd => by have := hs.1 d hd; simp at this; omega)
        have h1 : c ≠ a := by omega
        simp [h1, h2, hv]
      · simp
    · split
      · rename_i hac
        subst hac
        split
        · rename_i hv
          rw [hv]
          exact Memory.read_of_unlisted m a (fun d hd => by have := hs.1 d hd; simp at this; omega)
        · simp
      · rename_i hac
        have h1 : c ≠ a := by omega
        simp [h1, Memory.read_write_same m a v ⟨hs.2, fun d hd => hn d (by simp [hd])⟩]

/-- A read after a write, in one equation. -/
theorem Memory.read_write (m : Memory) (h : Memory.wf m) (a b : Nat) (v : Byte) :
    (m.write a v).read b = if b = a then v else m.read b := by
  split
  · rename_i hb
    rw [hb]
    exact Memory.read_write_same m a v h
  · rename_i hb
    exact Memory.read_write_other m a b v hb

/-- What a write can list: the written address, or an entry that was there. -/
theorem Memory.mem_write : ∀ (m : Memory) (a : Nat) (v : Byte) (c : Host.Cell), c ∈ m.write a v →
    (c = (a, v) ∧ v ≠ 0) ∨ c ∈ m
  | [], a, v, c, h => by
    unfold Memory.write at h
    split at h <;> simp_all
  | (b, u) :: m, a, v, c, h => by
    unfold Memory.write at h
    split at h
    · split at h
      · exact .inr h
      · rcases List.mem_cons.mp h with h | h
        · exact .inl ⟨h, by assumption⟩
        · exact .inr h
    · split at h
      · split at h
        · exact .inr (by simp [h])
        · rcases List.mem_cons.mp h with h | h
          · exact .inl ⟨h, by assumption⟩
          · exact .inr (by simp [h])
      · rcases List.mem_cons.mp h with h | h
        · exact .inr (by simp [h])
        · rcases Memory.mem_write m a v c h with h | h
          · exact .inl h
          · exact .inr (by simp [h])

/-- A write keeps the canonical form. -/
theorem Memory.wf_write : ∀ (m : Memory) (a : Nat) (v : Byte), Memory.wf m → Memory.wf (m.write a v)
  | [], a, v, _ => by
    unfold Memory.write
    split
    · exact Memory.wf_nil
    · rename_i hv
      exact Memory.wf_single a v hv
  | (b, u) :: m, a, v, h => by
    obtain ⟨hs, hn⟩ := h
    have hs' := List.pairwise_cons.mp hs
    have hm : Memory.wf m := ⟨hs'.2, fun d hd => hn d (by simp [hd])⟩
    unfold Memory.write
    split
    · split
      · exact ⟨hs, hn⟩
      · rename_i hab hv
        refine ⟨List.pairwise_cons.mpr ⟨?_, hs⟩, ?_⟩
        · intro d hd
          rcases List.mem_cons.mp hd with rfl | hd
          · exact hab
          · exact Nat.lt_trans hab (hs'.1 d hd)
        · intro d hd
          rcases List.mem_cons.mp hd with rfl | hd
          · exact hv
          · exact hn d hd
    · split
      · rename_i hab
        subst hab
        split
        · exact hm
        · rename_i hv
          refine ⟨List.pairwise_cons.mpr ⟨hs'.1, hs'.2⟩, ?_⟩
          intro d hd
          rcases List.mem_cons.mp hd with rfl | hd
          · exact hv
          · exact hm.2 d hd
      · rename_i h1 h2
        have hw := Memory.wf_write m a v hm
        refine ⟨List.pairwise_cons.mpr ⟨?_, hw.1⟩, ?_⟩
        · intro d hd
          rcases Memory.mem_write m a v d hd with ⟨rfl, _⟩ | hd
          · show b < a
            omega
          · exact hs'.1 d hd
        · intro d hd
          rcases List.mem_cons.mp hd with rfl | hd
          · exact hn _ (by simp)
          · exact hw.2 d hd

/-- In canonical form a listed byte is the one that is read. -/
theorem Memory.read_of_mem : ∀ (m : Memory) (c : Host.Cell), Memory.wf m → c ∈ m → m.read c.1 = c.2
  | (b, u) :: m, c, h, hc => by
    obtain ⟨hs, hn⟩ := h
    have hs' := List.pairwise_cons.mp hs
    rcases List.mem_cons.mp hc with rfl | hc
    · simp
    · have : b < c.1 := hs'.1 c hc
      have hb : b ≠ c.1 := by omega
      simp [hb, Memory.read_of_mem m c ⟨hs'.2, fun d hd => hn d (by simp [hd])⟩ hc]

/-- Memories in canonical form that read alike are the same data. -/
theorem Memory.eq_of_read : ∀ (m n : Memory), Memory.wf m → Memory.wf n → (∀ a, m.read a = n.read a) → m = n
  | [], [], _, _, _ => rfl
  | [], (b, u) :: n, _, hn, h => by
    have := h b
    simp at this
    exact absurd this.symm (hn.2 (b, u) (by simp))
  | (b, u) :: m, [], hm, _, h => by
    have := h b
    simp at this
    exact absurd this (hm.2 (b, u) (by simp))
  | (b, u) :: m, (c, v) :: n, hm, hn, h => by
    have hm' := List.pairwise_cons.mp hm.1
    have hn' := List.pairwise_cons.mp hn.1
    have hbc : b = c := by
      rcases Nat.lt_trichotomy b c with hlt | heq | hgt
      · have h1 : Memory.read ((c, v) :: n) b = 0 := Memory.read_of_unlisted _ b (fun d hd => by
          rcases List.mem_cons.mp hd with rfl | hd
          · simp; omega
          · have := hn'.1 d hd; simp at this; omega)
        have h2 := h b
        rw [h1] at h2
        simp at h2
        exact absurd h2 (hm.2 (b, u) (by simp))
      · exact heq
      · have h1 : Memory.read ((b, u) :: m) c = 0 := Memory.read_of_unlisted _ c (fun d hd => by
          rcases List.mem_cons.mp hd with rfl | hd
          · simp; omega
          · have := hm'.1 d hd; simp at this; omega)
        have h2 := h c
        rw [h1] at h2
        simp at h2
        exact absurd h2.symm (hn.2 (c, v) (by simp))
    subst hbc
    have huv : u = v := by have := h b; simpa using this
    subst huv
    congr 1
    refine Memory.eq_of_read m n ⟨hm'.2, fun d hd => hm.2 d (by simp [hd])⟩
      ⟨hn'.2, fun d hd => hn.2 d (by simp [hd])⟩ (fun a => ?_)
    by_cases hab : b = a
    · subst hab
      rw [Memory.read_of_unlisted m b (fun d hd => by have := hm'.1 d hd; simp at this; omega),
        Memory.read_of_unlisted n b (fun d hd => by have := hn'.1 d hd; simp at this; omega)]
    · have := h a
      simpa [hab] using this

/-! ## The merge (R134) -/

@[simp] theorem maxByte_zero (x : Byte) : maxByte x 0#8 = x := by simp [maxByte]

theorem maxByte_toNat (x y : Byte) : (maxByte x y).toNat = max x.toNat y.toNat := by
  unfold maxByte
  split <;> omega

/-- A merge keeps the canonical form. -/
theorem Memory.wf_merge (other : Memory) : ∀ m : Memory, Memory.wf m → Memory.wf (m.merge other) := by
  induction other with
  | nil => exact fun m h => h
  | cons c other ih => exact fun m h => ih _ (Memory.wf_write m c.1 _ h)

/-- What a merge can list. -/
theorem Memory.mem_merge (other : Memory) : ∀ (m : Memory) (c : Host.Cell), c ∈ m.merge other →
    (∃ d ∈ m, d.1 = c.1) ∨ (∃ d ∈ other, d.1 = c.1) := by
  induction other with
  | nil => exact fun m c h => .inl ⟨c, h, rfl⟩
  | cons e other ih =>
    intro m c h
    rcases ih (m.write e.1 _) c h with ⟨d, hd, hdc⟩ | ⟨d, hd, hdc⟩
    · rcases Memory.mem_write m e.1 _ d hd with ⟨rfl, _⟩ | hd
      · exact .inr ⟨e, by simp, hdc⟩
      · exact .inl ⟨d, hd, hdc⟩
    · exact .inr ⟨d, by simp [hd], hdc⟩

/-- A merged lane is the maximum of the two lanes. -/
theorem Memory.read_merge (other : Memory) : ∀ (m : Memory) (a : Nat), Memory.wf m → Memory.wf other →
    (m.merge other).read a = maxByte (m.read a) (other.read a) := by
  induction other with
  | nil => exact fun m a _ _ => by simp [Memory.merge]
  | cons e other ih =>
    intro m a hm ho
    obtain ⟨b, u⟩ := e
    have hs := List.pairwise_cons.mp ho.1
    have ho' : Memory.wf other := ⟨hs.2, fun d hd => ho.2 d (by simp [hd])⟩
    have := ih (m.write b (maxByte (m.read b) u)) a (Memory.wf_write _ _ _ hm) ho'
    show Memory.read (Memory.merge (m.write b (maxByte (m.read b) u)) other) a = _
    rw [this, Memory.read_write m hm]
    by_cases hab : a = b
    · subst hab
      rw [Memory.read_of_unlisted other a (fun d hd => by have := hs.1 d hd; simp at this; omega)]
      simp
    · simp [hab, Ne.symm hab]

end Sys2Proof.Machine
end

