-- ==== Sys2Proof/Laws/State.lean ====
section
/-! SUPPORT. Beside the state: one lemma per field per update, so that no proof unfolds a record update, and what the shared
operations respond, raise and reset do. -/

namespace Sys2Proof.Machine

variable (s : State)

@[simp] theorem State.setW_w (v : Writer) : (s.setW v).w = v := rfl
@[simp] theorem State.setW_r (v : Writer) : (s.setW v).r = s.r := rfl
@[simp] theorem State.setW_h (v : Writer) : (s.setW v).h = s.h := rfl
@[simp] theorem State.setW_fsr (v : Writer) : (s.setW v).fsr = s.fsr := rfl
@[simp] theorem State.setW_mm (v : Writer) : (s.setW v).mm = s.mm := rfl
@[simp] theorem State.setW_inputs (v : Writer) : (s.setW v).inputs = s.inputs := rfl
@[simp] theorem State.setW_offer (v : Writer) : (s.setW v).offer = s.offer := rfl
@[simp] theorem State.setW_resp (v : Writer) : (s.setW v).resp = s.resp := rfl

@[simp] theorem State.setR_w (v : Reader) : (s.setR v).w = s.w := rfl
@[simp] theorem State.setR_r (v : Reader) : (s.setR v).r = v := rfl
@[simp] theorem State.setR_h (v : Reader) : (s.setR v).h = s.h := rfl
@[simp] theorem State.setR_fsr (v : Reader) : (s.setR v).fsr = s.fsr := rfl
@[simp] theorem State.setR_mm (v : Reader) : (s.setR v).mm = s.mm := rfl
@[simp] theorem State.setR_inputs (v : Reader) : (s.setR v).inputs = s.inputs := rfl
@[simp] theorem State.setR_offer (v : Reader) : (s.setR v).offer = s.offer := rfl
@[simp] theorem State.setR_resp (v : Reader) : (s.setR v).resp = s.resp := rfl

@[simp] theorem State.setH_w (v : List Sketch) : (s.setH v).w = s.w := rfl
@[simp] theorem State.setH_r (v : List Sketch) : (s.setH v).r = s.r := rfl
@[simp] theorem State.setH_h (v : List Sketch) : (s.setH v).h = v := rfl
@[simp] theorem State.setH_fsr (v : List Sketch) : (s.setH v).fsr = s.fsr := rfl
@[simp] theorem State.setH_mm (v : List Sketch) : (s.setH v).mm = s.mm := rfl
@[simp] theorem State.setH_inputs (v : List Sketch) : (s.setH v).inputs = s.inputs := rfl
@[simp] theorem State.setH_offer (v : List Sketch) : (s.setH v).offer = s.offer := rfl
@[simp] theorem State.setH_resp (v : List Sketch) : (s.setH v).resp = s.resp := rfl

@[simp] theorem State.setFsr_w (v : BitVec 8) : (s.setFsr v).w = s.w := rfl
@[simp] theorem State.setFsr_r (v : BitVec 8) : (s.setFsr v).r = s.r := rfl
@[simp] theorem State.setFsr_h (v : BitVec 8) : (s.setFsr v).h = s.h := rfl
@[simp] theorem State.setFsr_fsr (v : BitVec 8) : (s.setFsr v).fsr = v := rfl
@[simp] theorem State.setFsr_mm (v : BitVec 8) : (s.setFsr v).mm = s.mm := rfl
@[simp] theorem State.setFsr_inputs (v : BitVec 8) : (s.setFsr v).inputs = s.inputs := rfl
@[simp] theorem State.setFsr_offer (v : BitVec 8) : (s.setFsr v).offer = s.offer := rfl
@[simp] theorem State.setFsr_resp (v : BitVec 8) : (s.setFsr v).resp = s.resp := rfl

@[simp] theorem State.setMm_w (v : Bool) : (s.setMm v).w = s.w := rfl
@[simp] theorem State.setMm_r (v : Bool) : (s.setMm v).r = s.r := rfl
@[simp] theorem State.setMm_h (v : Bool) : (s.setMm v).h = s.h := rfl
@[simp] theorem State.setMm_fsr (v : Bool) : (s.setMm v).fsr = s.fsr := rfl
@[simp] theorem State.setMm_mm (v : Bool) : (s.setMm v).mm = v := rfl
@[simp] theorem State.setMm_inputs (v : Bool) : (s.setMm v).inputs = s.inputs := rfl
@[simp] theorem State.setMm_offer (v : Bool) : (s.setMm v).offer = s.offer := rfl
@[simp] theorem State.setMm_resp (v : Bool) : (s.setMm v).resp = s.resp := rfl

@[simp] theorem State.setInputs_w (v : List Input) : (s.setInputs v).w = s.w := rfl
@[simp] theorem State.setInputs_r (v : List Input) : (s.setInputs v).r = s.r := rfl
@[simp] theorem State.setInputs_h (v : List Input) : (s.setInputs v).h = s.h := rfl
@[simp] theorem State.setInputs_fsr (v : List Input) : (s.setInputs v).fsr = s.fsr := rfl
@[simp] theorem State.setInputs_mm (v : List Input) : (s.setInputs v).mm = s.mm := rfl
@[simp] theorem State.setInputs_inputs (v : List Input) : (s.setInputs v).inputs = v := rfl
@[simp] theorem State.setInputs_offer (v : List Input) : (s.setInputs v).offer = s.offer := rfl
@[simp] theorem State.setInputs_resp (v : List Input) : (s.setInputs v).resp = s.resp := rfl

@[simp] theorem State.setOffer_w (v : List Byte) : (s.setOffer v).w = s.w := rfl
@[simp] theorem State.setOffer_r (v : List Byte) : (s.setOffer v).r = s.r := rfl
@[simp] theorem State.setOffer_h (v : List Byte) : (s.setOffer v).h = s.h := rfl
@[simp] theorem State.setOffer_fsr (v : List Byte) : (s.setOffer v).fsr = s.fsr := rfl
@[simp] theorem State.setOffer_mm (v : List Byte) : (s.setOffer v).mm = s.mm := rfl
@[simp] theorem State.setOffer_inputs (v : List Byte) : (s.setOffer v).inputs = s.inputs := rfl
@[simp] theorem State.setOffer_offer (v : List Byte) : (s.setOffer v).offer = v := rfl
@[simp] theorem State.setOffer_resp (v : List Byte) : (s.setOffer v).resp = s.resp := rfl

@[simp] theorem State.setResp_w (v : Option Response) : (s.setResp v).w = s.w := rfl
@[simp] theorem State.setResp_r (v : Option Response) : (s.setResp v).r = s.r := rfl
@[simp] theorem State.setResp_h (v : Option Response) : (s.setResp v).h = s.h := rfl
@[simp] theorem State.setResp_fsr (v : Option Response) : (s.setResp v).fsr = s.fsr := rfl
@[simp] theorem State.setResp_mm (v : Option Response) : (s.setResp v).mm = s.mm := rfl
@[simp] theorem State.setResp_inputs (v : Option Response) : (s.setResp v).inputs = s.inputs := rfl
@[simp] theorem State.setResp_offer (v : Option Response) : (s.setResp v).offer = s.offer := rfl
@[simp] theorem State.setResp_resp (v : Option Response) : (s.setResp v).resp = v := rfl

@[simp] theorem State.setSlot_w (i : Nat) (k : Sketch) : (s.setSlot i k).w = s.w := rfl
@[simp] theorem State.setSlot_r (i : Nat) (k : Sketch) : (s.setSlot i k).r = s.r := rfl
@[simp] theorem State.setSlot_h (i : Nat) (k : Sketch) : (s.setSlot i k).h = s.h.set i k := rfl
@[simp] theorem State.setSlot_fsr (i : Nat) (k : Sketch) : (s.setSlot i k).fsr = s.fsr := rfl
@[simp] theorem State.setSlot_mm (i : Nat) (k : Sketch) : (s.setSlot i k).mm = s.mm := rfl
@[simp] theorem State.setSlot_inputs (i : Nat) (k : Sketch) : (s.setSlot i k).inputs = s.inputs := rfl
@[simp] theorem State.setSlot_offer (i : Nat) (k : Sketch) : (s.setSlot i k).offer = s.offer := rfl
@[simp] theorem State.setSlot_resp (i : Nat) (k : Sketch) : (s.setSlot i k).resp = s.resp := rfl

@[simp] theorem State.setSlot_nsketch (i : Nat) (k : Sketch) : (s.setSlot i k).nsketch = s.nsketch := by
  simp [State.nsketch]

/-! ## What a fault does (R144) -/

@[simp] theorem takeFault_h (u : UnitClass) (c : FaultCode) : (takeFault u c s).h = s.h := rfl
@[simp] theorem takeFault_mm (u : UnitClass) (c : FaultCode) : (takeFault u c s).mm = s.mm := rfl
@[simp] theorem takeFault_inputs (u : UnitClass) (c : FaultCode) : (takeFault u c s).inputs = s.inputs := rfl
@[simp] theorem takeFault_offer (u : UnitClass) (c : FaultCode) : (takeFault u c s).offer = s.offer := rfl
@[simp] theorem takeFault_fsr (u : UnitClass) (c : FaultCode) : (takeFault u c s).fsr = recordFault c s.fsr := rfl
@[simp] theorem takeFault_resp (u : UnitClass) (c : FaultCode) : (takeFault u c s).resp = some ⟨c.code, 0⟩ := rfl
@[simp] theorem takeFault_w (u : UnitClass) (c : FaultCode) : (takeFault u c s).w = spoilWriter u c s.w := rfl
@[simp] theorem takeFault_r (u : UnitClass) (c : FaultCode) : (takeFault u c s).r = spoilReader u c s.r := rfl

/-- A fault changes at most the writer's state field. -/
theorem spoilWriter_cases (u : UnitClass) (c : FaultCode) (w : Writer) :
    (spoilWriter u c w = w) ∨ (u = .writer ∧ c = .width ∧ spoilWriter u c w = { w with wst := .faulted }) := by
  unfold spoilWriter
  split
  · rename_i h
    exact .inr ⟨h.1, h.2, rfl⟩
  · exact .inl rfl

/-- A fault changes at most the reader's state field. -/
theorem spoilReader_cases (u : UnitClass) (c : FaultCode) (r : Reader) :
    (spoilReader u c r = r) ∨
      (u = .reader ∧ (c = .width ∨ c = .eos ∨ c = .varint) ∧ spoilReader u c r = { r with rst := .faulted }) := by
  unfold spoilReader
  split
  · rename_i h
    exact .inr ⟨h.1, h.2, rfl⟩
  · exact .inl rfl

/-- A raise answers the faulted state and no other. -/
@[simp] theorem raise_eq_next (u : UnitClass) (c : FaultCode) (t : State) :
    raise u c s = .next t ↔ t = takeFault u c s := by
  simp [raise, eq_comm]

/-- A response with success changes only the response. -/
@[simp] theorem respond_eq_next (rd : Word) (t : State) :
    respond rd s = .next t ↔ t = s.setResp (some ⟨0, rd⟩) := by
  simp [respond, eq_comm]

/-- A fault code is one of 1 to 7 (R140). -/
theorem FaultCode.code_range (c : FaultCode) : 1 ≤ c.code.toNat ∧ c.code.toNat ≤ 7 := by
  cases c <;> decide

/-- What the slot checks of R135 can do: INDEX, STATE, or the command's own part on a valid slot. -/
theorem withSketch_cases (i : Nat) (body : Sketch → Result) :
    (s.nsketch ≤ i ∧ withSketch i s body = raise .sketch .index s) ∨
    (∃ k, s.h[i]? = some k ∧ k.valid = false ∧ withSketch i s body = raise .sketch .state s) ∨
    (∃ k, s.h[i]? = some k ∧ k.valid = true ∧ withSketch i s body = body k) := by
  unfold withSketch
  cases hk : s.h[i]? with
  | none => exact .inl ⟨by simpa [State.nsketch] using hk, rfl⟩
  | some k =>
    cases hv : k.valid with
    | false => exact .inr (.inl ⟨k, rfl, hv, by simp [hv]⟩)
    | true => exact .inr (.inr ⟨k, rfl, hv, by simp [hv]⟩)

/-! ## Reset (R160) -/

@[simp] theorem resetBlock_w : (resetBlock s).w = Writer.reset := rfl
@[simp] theorem resetBlock_r : (resetBlock s).r = Reader.reset := rfl
@[simp] theorem resetBlock_h : (resetBlock s).h = List.replicate s.nsketch Sketch.reset := rfl
@[simp] theorem resetBlock_fsr : (resetBlock s).fsr = 0 := rfl
@[simp] theorem resetBlock_mm : (resetBlock s).mm = false := rfl
@[simp] theorem resetBlock_inputs : (resetBlock s).inputs = s.inputs := rfl
@[simp] theorem resetBlock_offer : (resetBlock s).offer = s.offer := rfl
@[simp] theorem resetBlock_resp : (resetBlock s).resp = s.resp := rfl

/-- Two states with equal fields are equal. -/
theorem State.eq_of_fields (t : State) (hw : t.w = s.w) (hr : t.r = s.r) (hh : t.h = s.h) (hf : t.fsr = s.fsr)
    (hm : t.mm = s.mm) (hi : t.inputs = s.inputs) (ho : t.offer = s.offer) (hp : t.resp = s.resp) : t = s := by
  cases s
  cases t
  simp_all

end Sys2Proof.Machine
end

