-- ==== Sys2Proof/Laws/Stream.lean ====
section
/-! SUPPORT. Laws of the streams of bits: fields and bytes as bits (spec rules R54, R55), and what the writer's bit path does to
the writer's bit string and cursor (R66, R104, R105). -/

namespace Sys2Proof.Machine

/-! ## Fields and bytes as bits -/

@[simp] theorem fieldBits_zero {width : Nat} (f : BitVec width) : fieldBits f 0 = [] := rfl

theorem fieldBits_succ {width : Nat} (f : BitVec width) (k : Nat) :
    fieldBits f (k + 1) = f.getLsbD k :: fieldBits f k := rfl

@[simp] theorem fieldBits_length {width : Nat} (f : BitVec width) : ∀ n, (fieldBits f n).length = n
  | 0 => rfl
  | k + 1 => by simp [fieldBits_succ, fieldBits_length f k]

/-- Bit `j` of a field, counted from its first bit. -/
theorem fieldBits_getElem {width : Nat} (f : BitVec width) : ∀ (n j : Nat) (h : j < (fieldBits f n).length),
    (fieldBits f n)[j] = f.getLsbD (n - 1 - j)
  | 0, j, h => absurd h (by simp)
  | k + 1, 0, _ => by simp [fieldBits_succ]
  | k + 1, j + 1, h => by
    have hj : j < (fieldBits f k).length := by simpa [fieldBits_succ] using h
    simp only [fieldBits_succ, List.getElem_cons_succ, fieldBits_getElem f k j hj]
    congr 1
    omega

/-- A field's bits depend on the low bits of the value alone. -/
theorem fieldBits_congr {v w : Nat} (f : BitVec v) (g : BitVec w) : ∀ n, (∀ j, j < n → f.getLsbD j = g.getLsbD j) →
    fieldBits f n = fieldBits g n
  | 0, _ => rfl
  | k + 1, h => by
    rw [fieldBits_succ, fieldBits_succ, h k (by omega), fieldBits_congr f g k (fun j hj => h j (by omega))]

@[simp] theorem bytesBits_nil : bytesBits [] = [] := rfl

@[simp] theorem bytesBits_cons (b : Byte) (l : List Byte) : bytesBits (b :: l) = fieldBits b 8 ++ bytesBits l := rfl

@[simp] theorem bytesBits_append (l m : List Byte) : bytesBits (l ++ m) = bytesBits l ++ bytesBits m := by
  simp [bytesBits]

@[simp] theorem bytesBits_length (l : List Byte) : (bytesBits l).length = 8 * l.length := by
  induction l with
  | nil => rfl
  | cons b l ih => simp [ih]; omega

/-- A byte is its eight bits. -/
theorem byte_eq_of_bits (b c : Byte) (h : fieldBits b 8 = fieldBits c 8) : b = c := by
  apply BitVec.eq_of_getLsbD_eq
  intro j hj
  have h1 := fieldBits_getElem b 8 (7 - j) (by simp; omega)
  have h2 := fieldBits_getElem c 8 (7 - j) (by simp; omega)
  have h3 : 8 - 1 - (7 - j) = j := by omega
  simp only [h] at h1
  rw [h3] at h1 h2
  exact h1.symm.trans h2

/-- A byte sequence is its bits. -/
theorem bytesBits_injective : ∀ l m : List Byte, bytesBits l = bytesBits m → l = m
  | [], [], _ => rfl
  | [], c :: m, h => by have := congrArg List.length h; simp at this; omega
  | b :: l, [], h => by have := congrArg List.length h; simp at this
  | b :: l, c :: m, h => by
    obtain ⟨h1, h2⟩ := List.append_inj (by simpa using h) (by simp)
    rw [byte_eq_of_bits b c h1, bytesBits_injective l m h2]

/-- Bit `k` of a packet is bit `7 - k % 8` of byte `k / 8` (R54). -/
theorem bytesBits_getElem? : ∀ (l : List Byte) (k : Nat),
    (bytesBits l)[k]? = (l[k / 8]?).map (fun b => b.getLsbD (7 - k % 8))
  | [], k => by simp
  | b :: l, k => by
    by_cases hk : k < 8
    · have h1 : k / 8 = 0 := by omega
      have h2 : k % 8 = k := by omega
      rw [bytesBits_cons, List.getElem?_append_left (by simpa using hk), h1, h2,
        List.getElem?_eq_getElem (by simpa using hk), fieldBits_getElem]
      simp
    · obtain ⟨q, rfl⟩ : ∃ q, k = q + 8 := ⟨k - 8, by omega⟩
      have h1 : (q + 8) / 8 = q / 8 + 1 := by omega
      have h2 : (q + 8) % 8 = q % 8 := by omega
      rw [bytesBits_cons, List.getElem?_append_right (by simp), h1, h2]
      simpa using bytesBits_getElem? l q

/-! ## One bit through the writer (R104) -/

theorem wbit_lt (w : Writer) : w.wbit.toNat < 8 := w.wbit.isLt

@[simp] theorem assignBit_getLsbD (v : Byte) (i j : Nat) (b : Bool) :
    (assignBit v i b).getLsbD j = if j = i ∧ j < 8 then b else v.getLsbD j := by
  by_cases hj : j < 8
  · unfold assignBit
    cases b <;> simp only [Bool.false_eq_true, if_false, if_true] <;>
      by_cases hji : j = i <;> (try subst hji) <;> simp [*]
    all_goals (intro h; omega)
  · rw [BitVec.getLsbD_of_ge _ j (by omega), BitVec.getLsbD_of_ge _ j (by omega)]
    simp [hj]

/-- The partial byte's first bits after one more bit is placed. -/
theorem take_fieldBits_assignBit (v : Byte) (k : Nat) (hk : k < 8) (b : Bool) :
    (fieldBits (assignBit v (7 - k) b) 8).take (k + 1) = (fieldBits v 8).take k ++ [b] := by
  apply List.ext_getElem?
  intro j
  by_cases hj : j < k + 1
  · rw [List.getElem?_take_of_lt hj, List.getElem?_eq_getElem (by simp; omega), fieldBits_getElem]
    by_cases hjk : j < k
    · rw [List.getElem?_append_left (by simp; omega), List.getElem?_take_of_lt hjk,
        List.getElem?_eq_getElem (by simp; omega), fieldBits_getElem]
      have : 8 - 1 - j ≠ 7 - k := by omega
      simp [this]
    · obtain rfl : j = k := by omega
      rw [List.getElem?_append_right (by simp)]
      have h1 : min j 8 = j := by omega
      have : 7 - j < 8 := by omega
      simp [h1]
      omega
  · rw [List.getElem?_eq_none (by simp; omega), List.getElem?_eq_none (by simp; omega)]

theorem putBit_of_last (b : Bool) (w : Writer) (h : w.wbit = 7) :
    putBit b w = emitByte { w with wcur := assignBit w.wcur (7 - w.wbit.toNat) b } := by
  rw [putBit, if_pos h]

theorem putBit_of_inner (b : Bool) (w : Writer) (h : w.wbit ≠ 7) :
    putBit b w = { w with wcur := assignBit w.wcur (7 - w.wbit.toNat) b, wbit := w.wbit + 1 } := by
  rw [putBit, if_neg h]

theorem wbit_eq_seven (w : Writer) : w.wbit = 7 ↔ w.wbit.toNat = 7 := by
  constructor
  · intro h; rw [h]; rfl
  · intro h; exact BitVec.eq_of_toNat_eq (by simpa using h)

theorem wbit_succ (w : Writer) (h : w.wbit ≠ 7) : (w.wbit + 1).toNat = w.wbit.toNat + 1 := by
  have h1 := wbit_lt w
  have h2 : w.wbit.toNat ≠ 7 := fun h' => h ((wbit_eq_seven w).mpr h')
  simp [BitVec.toNat_add]
  omega

/-- One turn of `put` appends one bit to the stream. -/
theorem Writer.bits_putBit (b : Bool) (w : Writer) : (putBit b w).bits = w.bits ++ [b] := by
  by_cases h : w.wbit = 7
  · have h7 : w.wbit.toNat = 7 := (wbit_eq_seven w).mp h
    have := take_fieldBits_assignBit w.wcur 7 (by omega) b
    rw [List.take_of_length_le (by simp)] at this
    rw [putBit_of_last b w h]
    simp [Writer.bits, emitByte, h7]
    simpa using this
  · rw [putBit_of_inner b w h]
    simp only [Writer.bits, wbit_succ w h]
    rw [take_fieldBits_assignBit w.wcur w.wbit.toNat (wbit_lt w) b, List.append_assoc]

/-- The writer's total bit position is the length of its bit string when the emitted bytes are counted. -/
theorem Writer.bits_length (w : Writer) : w.bits.length = 8 * w.snk.length + w.wbit.toNat := by
  have := wbit_lt w
  simp [Writer.bits]
  omega

theorem Appended.refl (w : Writer) : Appended w w [] where
  bits := by simp
  wst := rfl
  snkDone := rfl
  wbit := by have := wbit_lt w; simp; omega
  emitted := ⟨[], by simp, by have := wbit_lt w; simp; omega, by simp⟩
  padded := id

/-- Bits put after bits put. -/
theorem Appended.trans {w w' w'' : Writer} {l m : List Bool} (h : Appended w w' l) (g : Appended w' w'' m) :
    Appended w w'' (l ++ m) where
  bits := by rw [g.bits, h.bits, List.append_assoc]
  wst := g.wst.trans h.wst
  snkDone := g.snkDone.trans h.snkDone
  wbit := by rw [g.wbit, h.wbit, List.length_append]; omega
  emitted := by
    obtain ⟨p, h1, h2, h3⟩ := h.emitted
    obtain ⟨q, g1, g2, g3⟩ := g.emitted
    refine ⟨p ++ q, by rw [g1, h1, List.append_assoc], ?_, ?_⟩
    · rw [List.length_append, h2, g2, h.wbit, List.length_append]
      have := wbit_lt w
      omega
    · rw [g3, h3, List.length_append, BitVec.add_assoc]
      congr 1
      simp [BitVec.ofNat_add]
  padded := g.padded ∘ h.padded

/-- One turn of `put` puts one bit (R104). -/
theorem appended_putBit (b : Bool) (w : Writer) : Appended w (putBit b w) [b] := by
  have h8 := wbit_lt w
  by_cases h : w.wbit = 7
  · have h7 : w.wbit.toNat = 7 := (wbit_eq_seven w).mp h
    refine ⟨Writer.bits_putBit b w, ?_, ?_, ?_, ?_, ?_⟩ <;> rw [putBit_of_last b w h]
    · rfl
    · rfl
    · simp [emitByte, h7]
    · exact ⟨[_], rfl, by simp [h7], by simp [emitByte]⟩
    · exact fun _ j _ => by simp [emitByte]
  · have h7 : w.wbit.toNat ≠ 7 := fun h' => h ((wbit_eq_seven w).mpr h')
    refine ⟨Writer.bits_putBit b w, ?_, ?_, ?_, ?_, ?_⟩ <;> rw [putBit_of_inner b w h]
    · show (w.wbit + 1).toNat = _
      rw [wbit_succ w h, List.length_singleton]
      omega
    · exact ⟨[], by simp, by simp; omega, by simp⟩
    · intro hp j hj
      change j < 8 - (w.wbit + 1).toNat at hj
      rw [wbit_succ w h] at hj
      rw [assignBit_getLsbD, if_neg (by omega)]
      exact hp j (by omega)

/-! ## Fields and bytes through the writer (R104, R57) -/

/-- `put` puts the field, most significant bit first (R55, R66). -/
theorem appended_put (f : Word) : ∀ (n : Nat) (w : Writer), Appended w (put f n w) (fieldBits f n)
  | 0, w => Appended.refl w
  | k + 1, w => (appended_putBit (f.getLsbD k) w).trans (appended_put f k (putBit (f.getLsbD k) w))

theorem putBytes_cons (b : Byte) (l : List Byte) (w : Writer) :
    putBytes (b :: l) w = putBytes l (put (b.zeroExtend 64) 8 w) := by
  simp only [putBytes, List.foldl_cons]

/-- Bytes through the bit path: eight bits each, at any bit offset (R57). -/
theorem appended_putBytes : ∀ (l : List Byte) (w : Writer), Appended w (putBytes l w) (bytesBits l)
  | [], w => Appended.refl w
  | b :: l, w => by
    rw [putBytes_cons, bytesBits_cons, ← fieldBits_congr (b.zeroExtend 64) b 8 (fun j hj => by simp; omega)]
    exact (appended_put (b.zeroExtend 64) 8 w).trans (appended_putBytes l _)

/-! ## Alignment (R105) -/

/-- What WALIGN does: nothing on a boundary, else the partial byte is emitted. -/
theorem alignWriter_cases (w : Writer) :
    (w.wbit = 0 ∧ alignWriter w = w) ∨ (w.wbit ≠ 0 ∧ alignWriter w = emitByte w) := by
  unfold alignWriter
  by_cases h : w.wbit = 0
  · exact .inl ⟨h, if_pos h⟩
  · exact .inr ⟨h, if_neg h⟩

/-- WALIGN puts the zero bits that reach the byte boundary. -/
theorem appended_alignWriter (w : Writer) (hp : w.padded) :
    Appended w (alignWriter w) (List.replicate ((8 - w.wbit.toNat) % 8) false) := by
  have h8 := wbit_lt w
  rcases alignWriter_cases w with ⟨h0, h⟩ | ⟨h0, h⟩
  · rw [h, h0]
    exact Appended.refl w
  · have h0' : w.wbit.toNat ≠ 0 := fun h' => h0 (BitVec.eq_of_toNat_eq (by simpa using h'))
    rw [h]
    refine ⟨?_, rfl, rfl, ?_, ⟨[w.wcur], rfl, ?_, ?_⟩, fun _ j _ => by simp [emitByte]⟩
    · have hsplit : fieldBits w.wcur 8 =
          (fieldBits w.wcur 8).take w.wbit.toNat ++ List.replicate ((8 - w.wbit.toNat) % 8) false := by
        apply List.ext_getElem?
        intro j
        by_cases hj : j < w.wbit.toNat
        · rw [List.getElem?_append_left (by simp; omega), List.getElem?_take_of_lt hj]
        · rw [List.getElem?_append_right (by simp; omega), List.getElem?_replicate]
          by_cases hj8 : j < 8
          · rw [List.getElem?_eq_getElem (by simpa using hj8), fieldBits_getElem, hp (8 - 1 - j) (by omega), if_pos]
            simp
            omega
          · rw [List.getElem?_eq_none (by simpa using hj8), if_neg]
            simp
            omega
      simp only [Writer.bits, emitByte, bytesBits_append, List.append_assoc]
      rw [← hsplit]
      simp
    · simp [emitByte]
      omega
    · simp
      omega
    · simp [emitByte]

/-- Two writers on a byte boundary with the same stream have emitted the same bytes. -/
theorem Writer.snk_eq_of_bits (w : Writer) (l : List Byte) (hw : w.wbit = 0) (h : w.bits = bytesBits l) : w.snk = l := by
  apply bytesBits_injective
  simpa [Writer.bits, hw] using h

end Sys2Proof.Machine
end

