-- ==== Sys2Proof/Laws/Reader.lean ====
section
/-! SUPPORT. Laws of the reader's bit path: what one bit, a field and a varint read, and where the cursor goes (spec rules R67,
R111, R112, R113). -/

namespace Sys2Proof.Machine

/-! ## Values of bit sequences -/

theorem foldl_bitsValue (l : List Bool) : ∀ v, l.foldl (fun v b => 2 * v + b.toNat) v = v * 2 ^ l.length + bitsValue l := by
  unfold bitsValue
  induction l with
  | nil => simp
  | cons b l ih =>
    intro v
    simp only [List.foldl_cons, List.length_cons]
    rw [ih, ih (2 * 0 + b.toNat)]
    ring

@[simp] theorem bitsValue_nil : bitsValue [] = 0 := rfl

theorem bitsValue_append (l m : List Bool) : bitsValue (l ++ m) = bitsValue l * 2 ^ m.length + bitsValue m := by
  rw [bitsValue, List.foldl_append, foldl_bitsValue]
  rfl

theorem bitsValue_cons (b : Bool) (l : List Bool) : bitsValue (b :: l) = b.toNat * 2 ^ l.length + bitsValue l := by
  rw [← List.singleton_append, bitsValue_append]
  simp [bitsValue]

theorem bitsValue_lt (l : List Bool) : bitsValue l < 2 ^ l.length := by
  induction l with
  | nil => simp
  | cons b l ih =>
    rw [bitsValue_cons, List.length_cons, Nat.pow_succ]
    cases b <;> simp <;> omega

/-- The value of a field's bits is the field (R55). -/
theorem bitsValue_fieldBits {width : Nat} (f : BitVec width) : ∀ n, bitsValue (fieldBits f n) = f.toNat % 2 ^ n
  | 0 => by simp [Nat.mod_one]
  | k + 1 => by
    rw [fieldBits_succ, bitsValue_cons, bitsValue_fieldBits f k, fieldBits_length, Nat.mod_pow_succ, BitVec.getLsbD,
      Nat.testBit_eq_decide_div_mod_eq]
    have h2 : f.toNat / 2 ^ k % 2 < 2 := Nat.mod_lt _ (by omega)
    by_cases h : f.toNat / 2 ^ k % 2 = 1
    · simp [h]; omega
    · have h0 : f.toNat / 2 ^ k % 2 = 0 := by omega
      simp [h0]

/-! ## The cursor -/

theorem rbit_lt (r : Reader) : r.rbit.toNat < 8 := r.rbit.isLt

/-- What the invariant says of the cursor, without the life-cycle state. -/
structure Reader.Cursor (r : Reader) : Prop where
  bound : r.src.length < Config.packetBound
  inside : r.position ≤ 8 * r.src.length
  boundary : r.rbit = 0 → r.rcur = 0
  byte : r.rbit ≠ 0 → r.src[r.rpos.toNat]? = some r.rcur

theorem Reader.Inv.cursor {r : Reader} (h : r.Inv) : r.Cursor := ⟨h.1, h.2.1, h.2.2.1, h.2.2.2.1⟩

theorem Reader.bits_length (r : Reader) : r.bits.length = 8 * r.src.length := by simp [Reader.bits]

/-- `AVAIL` is the number of unread bits (R38). -/
theorem avail_eq (r : Reader) : avail r = 8 * r.src.length - r.position := by
  simp [avail, Reader.position]
  omega

theorem Reader.rest_length (r : Reader) : r.rest.length = avail r := by
  rw [Reader.rest, List.length_drop, Reader.bits_length, avail_eq]

theorem Reader.Cursor.rpos_small {r : Reader} (h : r.Cursor) : r.rpos.toNat < 2 ^ 61 := by
  have := h.bound
  have := h.inside
  simp [Reader.position, Config.packetBound] at *
  omega

/-- While a bit is unread, the current byte is the one under the cursor. -/
theorem currentByte_eq {r : Reader} (h : r.Cursor) (ha : 1 ≤ avail r) :
    currentByte r = r.src[r.rpos.toNat]? ∧ r.rpos.toNat < r.src.length := by
  have hp : r.rpos.toNat < r.src.length := by
    rw [avail_eq] at ha
    simp [Reader.position] at ha
    omega
  refine ⟨?_, hp⟩
  unfold currentByte
  split
  · rfl
  · rename_i hb
    exact (h.byte hb).symm

theorem rpos_succ {r : Reader} (h : r.Cursor) : (r.rpos + 1).toNat = r.rpos.toNat + 1 := by
  have := h.rpos_small
  simp [BitVec.toNat_add]
  omega

/-- One turn of `get`: the next stream bit, and the cursor one bit on (R111). -/
theorem getBit_spec {r : Reader} (h : r.Cursor) (ha : 1 ≤ avail r) :
    ∃ r', getBit r = some (r.rest.headD false, r') ∧ r'.position = r.position + 1 ∧ r'.src = r.src ∧ r'.rst = r.rst ∧
      r'.Cursor := by
  obtain ⟨hc, hp⟩ := currentByte_eq h ha
  have h8 := rbit_lt r
  have hget : r.src[r.rpos.toNat]? = some r.src[r.rpos.toNat] := List.getElem?_eq_getElem hp
  have hhead : r.rest.headD false = r.src[r.rpos.toNat].getLsbD (7 - r.rbit.toNat) := by
    rw [List.headD_eq_head?_getD, List.head?_eq_getElem?, Reader.rest, List.getElem?_drop, Reader.bits, bytesBits_getElem?]
    have h1 : (r.position + 0) / 8 = r.rpos.toNat := by simp [Reader.position]; omega
    have h2 : (r.position + 0) % 8 = r.rbit.toNat := by simp [Reader.position]; omega
    rw [h1, h2, hget]
    rfl
  unfold getBit
  rw [hc, hget, hhead]
  by_cases h7 : r.rbit = 7
  · have h7' : r.rbit.toNat = 7 := by rw [h7]; rfl
    have hpos : (nextByte r).position = r.position + 1 := by
      simp only [nextByte, Reader.position, rpos_succ h, h7']
      simp
      omega
    refine ⟨nextByte r, by simp [h7], hpos, rfl, rfl, h.bound, ?_, fun _ => rfl, fun h0 => absurd rfl h0⟩
    rw [hpos]
    rw [avail_eq] at ha
    show r.position + 1 ≤ 8 * r.src.length
    omega
  · have h7' : r.rbit.toNat ≠ 7 := fun h' => h7 (BitVec.eq_of_toNat_eq (by simpa using h'))
    have hb : (r.rbit + 1).toNat = r.rbit.toNat + 1 := by simp [BitVec.toNat_add]; omega
    have hpos : ({ r with rcur := r.src[r.rpos.toNat], rbit := r.rbit + 1 } : Reader).position = r.position + 1 := by
      simp only [Reader.position, hb]
      omega
    refine ⟨{ r with rcur := r.src[r.rpos.toNat], rbit := r.rbit + 1 }, by simp only [if_neg h7], hpos, rfl, rfl, h.bound, ?_, ?_, ?_⟩
    · rw [hpos]
      rw [avail_eq] at ha
      show r.position + 1 ≤ 8 * r.src.length
      omega
    · intro h0
      have : (r.rbit + 1).toNat = 0 := by show ({ r with rcur := r.src[r.rpos.toNat], rbit := r.rbit + 1 } : Reader).rbit.toNat = 0; rw [h0]; rfl
      omega
    · exact fun _ => hget

/-- The unread bits after the cursor has moved over the same packet. -/
theorem Reader.rest_of_moved {r r' : Reader} (n : Nat) (hp : r'.position = r.position + n) (hs : r'.src = r.src) :
    r'.rest = r.rest.drop n := by
  rw [Reader.rest, Reader.rest, List.drop_drop, hp, Reader.bits, Reader.bits, hs]

theorem avail_of_moved {r r' : Reader} (n : Nat) (hp : r'.position = r.position + n) (hs : r'.src = r.src) :
    avail r' = avail r - n := by
  rw [avail_eq, avail_eq, hp, hs]
  omega

/-- The next stream bit enters the value at the bottom (R111). -/
theorem shiftIn_eq (v : Word) (b : Bool) :
    (v <<< 1) ||| (BitVec.ofBool b).zeroExtend 64 = BitVec.ofNat 64 (2 * v.toNat + b.toNat) := by
  have hz : (v <<< 1) &&& (BitVec.ofBool b).zeroExtend 64 = 0#64 := by
    apply BitVec.eq_of_getLsbD_eq
    intro j hj
    cases j <;> simp
  rw [← BitVec.add_eq_or_of_and_eq_zero _ _ hz]
  apply BitVec.eq_of_toNat_eq
  cases b <;> simp [Nat.shiftLeft_eq] <;> omega

/-- `get` with a value read so far: the next `n` bits follow it (R111). -/
theorem getInto_spec : ∀ (n : Nat) (v : Word) (r : Reader), r.Cursor → n ≤ avail r →
    ∃ r', getInto n v r = some (BitVec.ofNat 64 (v.toNat * 2 ^ n + bitsValue (r.rest.take n)), r') ∧
      r'.position = r.position + n ∧ r'.src = r.src ∧ r'.rst = r.rst ∧ r'.Cursor
  | 0, v, r, h, _ => ⟨r, by simp [getInto], rfl, rfl, rfl, h⟩
  | k + 1, v, r, h, ha => by
    obtain ⟨r1, h1, h2, h3, h4, h5⟩ := getBit_spec h (by omega)
    have ha1 : k ≤ avail r1 := by rw [avail_of_moved 1 h2 h3]; omega
    obtain ⟨r2, g1, g2, g3, g4, g5⟩ := getInto_spec k (BitVec.ofNat 64 (2 * v.toNat + (r.rest.headD false).toNat)) r1 h5 ha1
    refine ⟨r2, ?_, by omega, g3.trans h3, g4.trans h4, g5⟩
    have hne : r.rest ≠ [] := by
      intro h0
      have := r.rest_length
      rw [h0] at this
      simp at this
      omega
    obtain ⟨b, l, hl⟩ := List.exists_cons_of_ne_nil hne
    rw [getInto, h1]
    simp only
    rw [shiftIn_eq, g1, Reader.rest_of_moved 1 h2 h3, hl]
    simp only [List.headD_cons, List.drop_succ_cons, List.drop_zero, List.take_succ_cons]
    congr 2
    have hlen : l.length = avail r - 1 := by
      have := r.rest_length
      rw [hl] at this
      simp at this
      omega
    have htake : (l.take k).length = k := by
      rw [List.length_take]
      omega
    rw [bitsValue_cons, htake, Nat.pow_succ]
    apply BitVec.eq_of_toNat_eq
    simp only [BitVec.toNat_ofNat]
    rw [Nat.add_mod, Nat.mod_mul_mod, ← Nat.add_mod]
    congr 1
    ring

/-- `get n` reads the number whose binary digits are the next `n` bits, and moves exactly `n` (R67, R111). -/
theorem get_spec {r : Reader} (h : r.Cursor) (n : Nat) (ha : n ≤ avail r) :
    ∃ r', get n r = some (BitVec.ofNat 64 (bitsValue (r.rest.take n)), r') ∧
      r'.position = r.position + n ∧ r'.src = r.src ∧ r'.rst = r.rst ∧ r'.Cursor := by
  simpa [get] using getInto_spec n 0 r h ha

/-- Reading eight bits that are a byte reads that byte. -/
theorem get_byte {r : Reader} (h : r.Cursor) (b : Byte) (l : List Bool) (hr : r.rest = fieldBits b 8 ++ l) :
    ∃ r', get 8 r = some (b.zeroExtend 64, r') ∧
      r'.position = r.position + 8 ∧ r'.src = r.src ∧ r'.rst = r.rst ∧ r'.Cursor ∧ r'.rest = l := by
  have ha : 8 ≤ avail r := by
    rw [← Reader.rest_length, hr]
    simp
  obtain ⟨r', h1, h2, h3, h4, h5⟩ := get_spec h 8 ha
  refine ⟨r', ?_, h2, h3, h4, h5, ?_⟩
  · rw [h1, hr, List.take_left' (by simp), bitsValue_fieldBits]
    congr 2
    apply BitVec.eq_of_toNat_eq
    have := b.isLt
    simp
    omega
  · rw [Reader.rest_of_moved 8 h2 h3, hr, List.drop_left' (by simp)]

end Sys2Proof.Machine
end

