-- ==== Sys2Proof/Laws/Varint.lean ====
section
/-! SUPPORT. Laws of varints: what the encoder emits (spec rules R56, R102) and what the reader's loop accepts and refuses (R112,
R113). -/

namespace Sys2Proof.Machine

/-! ## The number behind the groups -/

theorem groupsValue_append (l m : List Byte) :
    groupsValue (l ++ m) = groupsValue l + 2 ^ (7 * l.length) * groupsValue m := by
  induction l with
  | nil => simp [groupsValue]
  | cons b l ih =>
    simp only [List.cons_append, groupsValue, ih, List.length_cons]
    rw [show 7 * (l.length + 1) = 7 + 7 * l.length by ring, pow_add]
    ring

theorem groupsValue_lt (l : List Byte) : groupsValue l < 2 ^ (7 * l.length) := by
  induction l with
  | nil => simp [groupsValue]
  | cons b l ih =>
    have : b.toNat % 128 < 128 := Nat.mod_lt _ (by omega)
    rw [groupsValue, List.length_cons, show 7 * (l.length + 1) = 7 * l.length + 7 by ring, pow_add]
    omega

theorem groupOf_toNat (b : Byte) : (groupOf b).toNat = b.toNat % 128 := by simp [groupOf]

/-- A group placed above the bits read so far is added to them (R112: disjoint ranges). -/
theorem or_group (width v i : Nat) (g : BitVec 7) (hw : 7 ≤ width) (hv : v < 2 ^ i) :
    BitVec.ofNat width v ||| (g.zeroExtend width <<< i) = BitVec.ofNat width (v + g.toNat * 2 ^ i) := by
  have hz : BitVec.ofNat width v &&& (g.zeroExtend width <<< i) = 0#width := by
    apply BitVec.eq_of_getLsbD_eq
    intro j hj
    by_cases hji : j < i
    · simp [hji]
    · have : v.testBit j = false := Nat.testBit_lt_two_pow (lt_of_lt_of_le hv (Nat.pow_le_pow_right (by omega) (by omega)))
      have h0 : (BitVec.ofNat width v).getLsbD j = false := by rw [BitVec.getLsbD_ofNat, this, Bool.and_false]
      rw [BitVec.getLsbD_and, h0, Bool.false_and, BitVec.getLsbD_zero]
  rw [← BitVec.add_eq_or_of_and_eq_zero _ _ hz]
  apply BitVec.eq_of_toNat_eq
  have h7 : g.toNat < 2 ^ width := lt_of_lt_of_le g.isLt (Nat.pow_le_pow_right (by omega) hw)
  simp [Nat.shiftLeft_eq, Nat.mod_eq_of_lt h7]

/-! ## The encoder (R102) -/

theorem byte_of_group (c : BitVec 1) (t : Word) :
    (c ++ (t.extractLsb' 0 7 : BitVec 7) : BitVec 8).toNat = c.toNat * 128 + t.toNat % 128 := by
  rw [BitVec.toNat_append]
  have : (t.extractLsb' 0 7 : BitVec 7).toNat = t.toNat % 128 := by simp
  rw [Nat.shiftLeft_eq, Nat.mul_comm, ← Nat.two_pow_add_eq_or_of_lt (by omega : (t.extractLsb' 0 7 : BitVec 7).toNat < 2 ^ 7), this]

theorem flag_of_group (c : BitVec 1) (g : BitVec 7) : (c ++ g : BitVec 8).getLsbD 7 = c.getLsbD 0 := by
  rw [BitVec.getLsbD_append]
  simp

theorem varintBytes_succ (k : Nat) (t : Word) : varintBytes (k + 1) t =
    if shr t 7 = 0 then [0#1 ++ (t.extractLsb' 0 7 : BitVec 7)]
    else (1#1 ++ (t.extractLsb' 0 7 : BitVec 7)) :: varintBytes k (shr t 7) := rfl

theorem shr_toNat (v : Word) (k : Nat) : (shr v k).toNat = v.toNat / 2 ^ k := by
  simp [shr, Nat.shiftRight_eq_div_pow]

/-- The encoder's bytes are a complete varint of the value, in the shortest form. -/
theorem varintBytes_spec : ∀ (k : Nat) (t : Word), t.toNat < 2 ^ (7 * (k + 1)) →
    isVarint (varintBytes (k + 1) t) ∧ groupsValue (varintBytes (k + 1) t) = t.toNat ∧
      (varintBytes (k + 1) t).length ≤ k + 1 ∧ 1 ≤ (varintBytes (k + 1) t).length ∧
      ((varintBytes (k + 1) t).length ≠ 1 → 2 ^ (7 * ((varintBytes (k + 1) t).length - 1)) ≤ t.toNat)
  | k, t, ht => by
    rw [varintBytes_succ]
    by_cases h0 : shr t 7 = 0
    · have hs : t.toNat < 128 := by
        have := shr_toNat t 7
        rw [h0] at this
        simp at this
        omega
      rw [if_pos h0]
      refine ⟨⟨[], _, rfl, fun b hb => absurd hb (by simp), by rw [flag_of_group]; rfl⟩, ?_, by simp, by simp, fun h => absurd rfl h⟩
      rw [groupsValue, groupsValue, byte_of_group]
      simp
      omega
    · have hs : 128 ≤ t.toNat := by
        by_contra hlt
        apply h0
        apply BitVec.eq_of_toNat_eq
        rw [shr_toNat]
        simp
        omega
      rw [if_neg h0]
      cases k with
      | zero => simp at ht; omega
      | succ k =>
        have hd : (shr t 7).toNat < 2 ^ (7 * (k + 1)) := by
          rw [shr_toNat]
          rw [show 7 * (k + 1 + 1) = 7 + 7 * (k + 1) by ring, pow_add] at ht
          exact Nat.div_lt_of_lt_mul ht
        obtain ⟨⟨m, b, h1, h2, h3⟩, h4, h5, h6, h7⟩ := varintBytes_spec k (shr t 7) hd
        have h4' := h4
        rw [shr_toNat] at h4'
        refine ⟨⟨_ :: m, b, by rw [h1]; rfl, ?_, h3⟩, ?_, by simp; omega, by simp, fun _ => ?_⟩
        · intro c hc
          rcases List.mem_cons.mp hc with rfl | hc
          · rw [flag_of_group]
            rfl
          · exact h2 c hc
        · rw [groupsValue, h4', byte_of_group]
          simp
          omega
        · rw [List.length_cons, Nat.add_sub_cancel]
          by_cases hl : (varintBytes (k + 1) (shr t 7)).length = 1
          · rw [hl]
            simpa using hs
          · have := h7 hl
            rw [shr_toNat] at this
            rw [show 7 * (varintBytes (k + 1) (shr t 7)).length
              = 7 * ((varintBytes (k + 1) (shr t 7)).length - 1) + 7 by omega, pow_add]
            omega

/-- The varint of a 64-bit value (R56, R102). -/
theorem varintEncode_spec (v : Word) :
    isVarint (varintEncode v) ∧ groupsValue (varintEncode v) = v.toNat ∧
      (varintEncode v).length ≤ 10 ∧ 1 ≤ (varintEncode v).length ∧
      ((varintEncode v).length ≠ 1 → 2 ^ (7 * ((varintEncode v).length - 1)) ≤ v.toNat) :=
  varintBytes_spec 9 v (lt_trans v.isLt (by norm_num))

/-! ## The reader's loop (R112, R113) -/

theorem extract_byte (b : Byte) : (b.zeroExtend 64 : Word).extractLsb' 0 8 = b := by
  apply BitVec.eq_of_getLsbD_eq
  intro j hj
  simp [hj]
  omega

/-- One turn of the loop on a whole byte. -/
theorem getGroups_byte (width groups k i : Nat) (acc : BitVec width) {r : Reader} (h : r.Cursor) (b : Byte) (l : List Bool)
    (hr : r.rest = fieldBits b 8 ++ l) :
    ∃ r', r'.position = r.position + 8 ∧ r'.src = r.src ∧ r'.rst = r.rst ∧ r'.Cursor ∧ r'.rest = l ∧
      getGroups width groups (k + 1) i acc r =
        if i = groups - 1 ∧ groupOf b >>> (width - 7 * i) ≠ 0 then .error .varint
        else if moreGroups b then
          getGroups width groups k (i + 1) (acc ||| ((groupOf b).zeroExtend width <<< (7 * i))) r'
        else .ok (acc ||| ((groupOf b).zeroExtend width <<< (7 * i)), r') := by
  obtain ⟨r', h1, h2, h3, h4, h5, h6⟩ := get_byte h b l hr
  refine ⟨r', h2, h3, h4, h5, h6, ?_⟩
  have ha : ¬ avail r < 8 := by
    rw [← Reader.rest_length, hr]
    simp
  rw [getGroups, if_neg ha, h1]
  simp only [extract_byte]

theorem group_shift_eq_zero (b : Byte) (n : Nat) : groupOf b >>> n = 0 ↔ b.toNat % 128 < 2 ^ n := by
  rw [← groupOf_toNat]
  constructor
  · intro h
    have := congrArg BitVec.toNat h
    simp [Nat.shiftRight_eq_div_pow] at this
    exact this
  · intro h
    apply BitVec.eq_of_toNat_eq
    simp [Nat.shiftRight_eq_div_pow]
    exact h

/-- A complete varint that fits is read, whatever its padding, and the cursor moves past it. -/
theorem getGroups_accept (width groups : Nat) (hw : 7 ≤ width) (hg : 7 * (groups - 1) < width) : ∀ (k i v : Nat) (r : Reader)
    (m : List Byte) (b : Byte) (l : List Bool), r.Cursor → i + k = groups → v < 2 ^ (7 * i) → m.length < k → allContinue m →
    b.getLsbD 7 = false → r.rest = bytesBits (m ++ [b]) ++ l → v + 2 ^ (7 * i) * groupsValue (m ++ [b]) < 2 ^ width →
    ∃ r', getGroups width groups k i (BitVec.ofNat width v) r =
        .ok (BitVec.ofNat width (v + 2 ^ (7 * i) * groupsValue (m ++ [b])), r') ∧
      r'.position = r.position + 8 * (m.length + 1) ∧ r'.src = r.src ∧ r'.rst = r.rst ∧ r'.Cursor ∧ r'.rest = l
  | 0, i, v, r, m, b, l, _, _, _, hm, _, _, _, _ => absurd hm (by omega)
  | k + 1, i, v, r, [], b, l, h, hi, hv, hm, hc, hb, hr, hf => by
    obtain ⟨r', h1, h2, h3, h4, h5, h6⟩ := getGroups_byte width groups k i (BitVec.ofNat width v) h b l (by simpa using hr)
    simp [groupsValue] at hf
    have hfit : b.toNat % 128 < 2 ^ (width - 7 * i) := by
      by_contra hlt
      have h1 : 2 ^ (width - 7 * i) ≤ b.toNat % 128 := by omega
      have h2 : 2 ^ (7 * i) * 2 ^ (width - 7 * i) = 2 ^ width := by rw [← pow_add]; congr 1; omega
      have := Nat.mul_le_mul_left (2 ^ (7 * i)) h1
      omega
    have hcond : ¬ (i = groups - 1 ∧ groupOf b >>> (width - 7 * i) ≠ 0) := fun hc => hc.2 ((group_shift_eq_zero b _).mpr hfit)
    have hmb : moreGroups b = false := hb
    refine ⟨r', ?_, by simp [h1], h2, h3, h4, h5⟩
    rw [h6, if_neg hcond, hmb, or_group width v (7 * i) (groupOf b) hw hv, groupOf_toNat]
    simp [groupsValue]
    ring_nf
  | k + 1, i, v, r, c :: m, b, l, h, hi, hv, hm, hc, hb, hr, hf => by
    simp only [List.length_cons] at hm
    obtain ⟨r', h1, h2, h3, h4, h5, h6⟩ := getGroups_byte width groups k i (BitVec.ofNat width v) h c
      (bytesBits (m ++ [b]) ++ l) (by simpa using hr)
    have hcond : ¬ (i = groups - 1 ∧ groupOf c >>> (width - 7 * i) ≠ 0) := by omega
    have hmc : moreGroups c = true := hc c (by simp)
    rw [List.cons_append, groupsValue] at hf
    have hsum : v + c.toNat % 128 * 2 ^ (7 * i) + 2 ^ (7 * (i + 1)) * groupsValue (m ++ [b])
        = v + 2 ^ (7 * i) * (c.toNat % 128 + 128 * groupsValue (m ++ [b])) := by
      rw [show 7 * (i + 1) = 7 * i + 7 by ring, pow_add]
      ring
    have hv' : v + c.toNat % 128 * 2 ^ (7 * i) < 2 ^ (7 * (i + 1)) := by
      have : c.toNat % 128 ≤ 127 := by omega
      have := Nat.mul_le_mul_right (2 ^ (7 * i)) this
      rw [show 7 * (i + 1) = 7 * i + 7 by ring, pow_add]
      omega
    obtain ⟨r2, g1, g2, g3, g4, g5, g6⟩ := getGroups_accept width groups hw hg k (i + 1) _ r' m b l h4 (by omega) hv' (by omega)
      (fun d hd => hc d (by simp [hd])) hb h5 (by rw [hsum]; exact hf)
    refine ⟨r2, ?_, by simp [g2, h1]; omega, g3.trans h2, g4.trans h3, g5, g6⟩
    rw [h6, if_neg hcond, if_pos hmc, or_group width v (7 * i) (groupOf c) hw hv, groupOf_toNat, g1, hsum,
      List.cons_append, groupsValue]

/-- Whole bytes with their flags set are taken, one group each. -/
theorem getGroups_continue (width groups : Nat) : ∀ (m : List Byte) (k i : Nat) (acc : BitVec width) (r : Reader) (l : List Bool),
    r.Cursor → i + m.length + k = groups → 1 ≤ k → allContinue m → r.rest = bytesBits m ++ l →
    ∃ (acc' : BitVec width) (r' : Reader), r'.Cursor ∧ r'.rest = l ∧
      getGroups width groups (m.length + k) i acc r = getGroups width groups k (i + m.length) acc' r'
  | [], k, i, acc, r, l, h, _, _, _, hr => ⟨acc, r, h, by simpa using hr, by simp⟩
  | c :: m, k, i, acc, r, l, h, hi, hk, hc, hr => by
    simp only [List.length_cons] at hi
    obtain ⟨r', h1, h2, h3, h4, h5, h6⟩ := getGroups_byte width groups (m.length + k) i acc h c (bytesBits m ++ l)
      (by simpa using hr)
    have hcond : ¬ (i = groups - 1 ∧ groupOf c >>> (width - 7 * i) ≠ 0) := by omega
    have hmc : moreGroups c = true := hc c (by simp)
    obtain ⟨acc', r2, g1, g2, g3⟩ := getGroups_continue width groups m k (i + 1)
      (acc ||| ((groupOf c).zeroExtend width <<< (7 * i))) r' l h4 (by omega) hk (fun d hd => hc d (by simp [hd])) h5
    refine ⟨acc', r2, g1, g2, ?_⟩
    rw [List.length_cons, show m.length + 1 + k = m.length + k + 1 by ring, h6, if_neg hcond, if_pos hmc, g3]
    congr 1
    omega

/-- A stream that ends before a byte with a clear flag, within the groups allowed, is EOS. -/
theorem getVarint_eos (width groups : Nat) {r : Reader} (h : r.Cursor) (m : List Byte) (l : List Bool)
    (hm : m.length < groups) (hc : allContinue m) (hr : r.rest = bytesBits m ++ l) (hl : l.length < 8) :
    getVarint width groups r = .error .eos := by
  obtain ⟨acc, r', h1, h2, h3⟩ := getGroups_continue width groups m (groups - m.length) 0 0 r l h (by omega) (by omega) hc hr
  rw [show m.length + (groups - m.length) = groups by omega] at h3
  rw [getVarint, h3]
  obtain ⟨k, hk⟩ : ∃ k, groups - m.length = k + 1 := ⟨groups - m.length - 1, by omega⟩
  rw [hk, getGroups, if_pos]
  rw [← Reader.rest_length, h2]
  exact hl

/-- A last group with bits beyond the width, or with its flag set, is VARINT. -/
theorem getVarint_varint (width groups : Nat) {r : Reader} (h : r.Cursor) (m : List Byte) (b : Byte) (l : List Bool)
    (hm : m.length + 1 = groups) (hc : allContinue m) (hr : r.rest = bytesBits (m ++ [b]) ++ l)
    (hb : 2 ^ (width - 7 * m.length) ≤ b.toNat % 128 ∨ b.getLsbD 7 = true) :
    getVarint width groups r = .error .varint := by
  obtain ⟨acc, r', h1, h2, h3⟩ := getGroups_continue width groups m 1 0 0 r (fieldBits b 8 ++ l) h (by omega) (by omega) hc
    (by simpa using hr)
  rw [hm, Nat.zero_add] at h3
  rw [getVarint, h3]
  obtain ⟨r2, _, _, _, _, _, g6⟩ := getGroups_byte width groups 0 m.length acc h1 b l h2
  rw [g6]
  split
  · rfl
  · rename_i hn
    have hmb : moreGroups b = true := by
      rcases hb with hb | hb
      · exfalso
        apply hn
        refine ⟨by omega, fun h0 => ?_⟩
        have := (group_shift_eq_zero b _).mp h0
        omega
      · exact hb
    rw [if_pos hmb]
    rfl

/-- A complete varint that fits its type is read (R112, R113). -/
theorem getVarint_accept (width groups : Nat) (hw : 7 ≤ width) (hg : 7 * (groups - 1) < width) {r : Reader} (h : r.Cursor)
    (bs : List Byte) (l : List Bool) (hv : isVarint bs) (hlen : bs.length ≤ groups) (hfit : groupsValue bs < 2 ^ width)
    (hr : r.rest = bytesBits bs ++ l) :
    ∃ r', getVarint width groups r = .ok (BitVec.ofNat width (groupsValue bs), r') ∧
      r'.position = r.position + 8 * bs.length ∧ r'.src = r.src ∧ r'.rst = r.rst ∧ r'.Cursor ∧ r'.rest = l := by
  obtain ⟨m, b, rfl, hm, hb⟩ := hv
  simp only [List.length_append, List.length_cons, List.length_nil] at hlen
  obtain ⟨r', h1, h2⟩ := getGroups_accept width groups hw hg groups 0 0 r m b l h (by omega) (by simp) (by omega) hm hb hr
    (by simpa using hfit)
  exact ⟨r', by simpa [getVarint] using h1, by simpa using h2⟩

/-- What the loop can do: a fault that is EOS or VARINT, or a value with the cursor moved inside the same packet. -/
theorem getGroups_cases (width groups : Nat) : ∀ (k i : Nat) (acc : BitVec width) (r : Reader), r.Cursor →
    (getGroups width groups k i acc r = .error .eos) ∨ (getGroups width groups k i acc r = .error .varint) ∨
    ∃ v r', getGroups width groups k i acc r = .ok (v, r') ∧ r'.src = r.src ∧ r'.rst = r.rst ∧ r'.Cursor
  | 0, _, _, _, _ => .inr (.inl rfl)
  | k + 1, i, acc, r, h => by
    by_cases ha : avail r < 8
    · left
      rw [getGroups, if_pos ha]
    · obtain ⟨r', h1, _, h3, h4, h5⟩ := get_spec h 8 (by omega)
      rw [getGroups, if_neg ha, h1]
      simp only
      split
      · exact .inr (.inl rfl)
      · split
        · rcases getGroups_cases width groups k (i + 1) _ r' h5 with h | h | ⟨v, r2, g1, g2, g3, g4⟩
          · exact .inl h
          · exact .inr (.inl h)
          · exact .inr (.inr ⟨v, r2, g1, g2.trans h3, g3.trans h4, g4⟩)
        · exact .inr (.inr ⟨_, r', rfl, h3, h4, h5⟩)

end Sys2Proof.Machine
end

