-- ==== Sys2Proof/Laws/Invariant.lean ====
section
/-! SUPPORT. The invariant of each unit under each shared operation (spec rules R25, R29, R31, R34, R38). -/

namespace Sys2Proof.Machine

/-! ## Writer -/

theorem Writer.reset_inv : Writer.reset.Inv :=
  ⟨rfl, fun j _ => by simp [Writer.reset], by simp [Writer.reset], fun _ => rfl, fun _ => rfl⟩

theorem openWriter_inv : openWriter.Inv :=
  ⟨rfl, fun j _ => by simp [openWriter, Writer.reset], by simp [openWriter, Writer.reset], fun _ => rfl,
    fun h => absurd h (by simp [openWriter])⟩

/-- Bits put into an open writer keep the invariant. -/
theorem Writer.Inv.appended {w w' : Writer} {l : List Bool} (h : w.Inv) (ho : w.wst = .opened) (ha : Appended w w' l) :
    w'.Inv := by
  obtain ⟨h1, h2, h3, _, _⟩ := h
  obtain ⟨m, g1, _, g3⟩ := ha.emitted
  refine ⟨?_, ha.padded h2, by rw [ha.snkDone, ha.wst, h3], ?_, ?_⟩
  · rw [g3, h1, g1, List.length_append, BitVec.ofNat_add]
  · rw [ha.wst, ho]
    exact fun h => absurd h (by simp)
  · rw [ha.wst, ho]
    exact fun h => absurd h (by simp)

/-- WALIGN ends on a byte boundary. -/
theorem alignWriter_wbit (w : Writer) : (alignWriter w).wbit = 0 := by
  rcases alignWriter_cases w with ⟨h0, h⟩ | ⟨_, h⟩
  · rw [h, h0]
  · rw [h]
    rfl

/-- WFLUSH ends an instance. -/
theorem Writer.Inv.flushed {w : Writer} (h : w.Inv) (ho : w.wst = .opened) :
    ({ alignWriter w with snkDone := true, wst := .flushed } : Writer).Inv := by
  have ha := h.appended ho (appended_alignWriter w h.2.1)
  exact ⟨ha.1, ha.2.1, by simp, fun _ => alignWriter_wbit w, fun h => absurd h (by simp)⟩

/-- A fault spoils at most the state field of an open writer. -/
theorem Writer.Inv.spoil {w : Writer} (h : w.Inv) (u : UnitClass) (c : FaultCode) (ho : c = .width → w.wst = .opened) :
    (spoilWriter u c w).Inv := by
  rcases spoilWriter_cases u c w with hs | ⟨_, hc, hs⟩
  · rwa [hs]
  · rw [hs]
    obtain ⟨h1, h2, h3, _, _⟩ := h
    refine ⟨h1, h2, ?_, fun h => absurd h (by simp), fun h => absurd h (by simp)⟩
    simp [h3, ho hc]

/-! ## Reader -/

theorem Reader.reset_inv : Reader.reset.Inv :=
  ⟨by simp [Reader.reset, Config.packetBound], by simp [Reader.reset, Reader.position], fun _ => rfl,
    fun h => absurd rfl h, fun _ => rfl⟩

theorem openReader_inv (p : List Byte) (h : p.length < Config.packetBound) : (openReader p).Inv :=
  ⟨h, by simp [openReader, Reader.reset, Reader.position], fun _ => rfl, fun h => absurd rfl h,
    fun h => absurd h (by simp [openReader])⟩

/-- A cursor that stands right in a reader that is not idle is the invariant. -/
theorem Reader.Cursor.inv {r : Reader} (h : r.Cursor) (ho : r.rst ≠ .idle) : r.Inv :=
  ⟨h.bound, h.inside, h.boundary, h.byte, fun hi => absurd hi ho⟩

/-- What RALIGN does: nothing on a boundary, else the cursor moves to the next byte (R114). -/
theorem alignReader_cases (r : Reader) :
    (r.rbit = 0 ∧ alignReader r = r) ∨ (r.rbit ≠ 0 ∧ alignReader r = nextByte r) := by
  unfold alignReader
  by_cases h : r.rbit = 0
  · exact .inl ⟨h, if_pos h⟩
  · exact .inr ⟨h, if_neg h⟩

/-- RALIGN discards the bits up to the byte boundary (R114). -/
theorem alignReader_spec {r : Reader} (h : r.Cursor) :
    (alignReader r).position = r.position + (8 - r.rbit.toNat) % 8 ∧ (alignReader r).src = r.src ∧
      (alignReader r).rst = r.rst ∧ (alignReader r).Cursor := by
  have h8 := rbit_lt r
  rcases alignReader_cases r with ⟨h0, ha⟩ | ⟨h0, ha⟩
  · rw [ha]
    exact ⟨by rw [h0]; rfl, rfl, rfl, h⟩
  · have h0' : r.rbit.toNat ≠ 0 := fun h' => h0 (BitVec.eq_of_toNat_eq (by simpa using h'))
    have hp : (nextByte r).position = r.position + (8 - r.rbit.toNat) % 8 := by
      show 8 * (r.rpos + 1).toNat + 0 = 8 * r.rpos.toNat + r.rbit.toNat + _
      rw [rpos_succ h]
      omega
    have hlt : r.rpos.toNat < r.src.length := by
      by_contra hn
      have := h.byte h0
      rw [List.getElem?_eq_none (by omega)] at this
      exact absurd this (by simp)
    rw [ha]
    refine ⟨hp, rfl, rfl, h.bound, ?_, fun _ => rfl, fun h => absurd rfl h⟩
    show 8 * (r.rpos + 1).toNat + 0 ≤ 8 * r.src.length
    rw [rpos_succ h]
    omega

/-- A fault spoils at most the state field of a reader that is not idle. -/
theorem Reader.Inv.spoil {r : Reader} (h : r.Inv) (u : UnitClass) (c : FaultCode) : (spoilReader u c r).Inv := by
  rcases spoilReader_cases u c r with hs | ⟨_, _, hs⟩
  · rwa [hs]
  · rw [hs]
    exact ⟨h.1, h.2.1, h.2.2.1, h.2.2.2.1, fun h => absurd h (by simp)⟩

/-! ## Slots -/

theorem Sketch.reset_inv : Sketch.reset.Inv :=
  ⟨Memory.wf_nil, fun c h => absurd h (by simp [Sketch.reset]), fun h => absurd h (by simp [Sketch.reset]), fun _ => rfl⟩

/-- A valid slot keeps the invariant under new registers that are canonical and in range. -/
theorem Sketch.Inv.withReg {k : Sketch} (h : k.Inv) (hv : k.valid = true) (m : Memory) (hm : Memory.wf m)
    (hr : ∀ c ∈ m, c.1 < k.size) : ({ k with reg := m } : Sketch).Inv :=
  ⟨hm, hr, h.2.2.1, fun hf => absurd (hv.symm.trans hf) (by simp)⟩

theorem Sketch.Inv.write {k : Sketch} (h : k.Inv) (hv : k.valid = true) (i : Nat) (hi : i < k.size) (v : Byte) :
    ({ k with reg := k.reg.write i v } : Sketch).Inv := by
  refine h.withReg hv _ (Memory.wf_write _ _ _ h.1) (fun c hc => ?_)
  rcases Memory.mem_write _ _ _ _ hc with ⟨rfl, _⟩ | hc
  · exact hi
  · exact h.2.1 c hc

theorem Sketch.Inv.merge {k k' : Sketch} (h : k.Inv) (h' : k'.Inv) (hv : k.valid = true) (hb : k.b = k'.b) :
    ({ k with reg := k.reg.merge k'.reg } : Sketch).Inv := by
  refine h.withReg hv _ (Memory.wf_merge _ _ h.1) (fun c hc => ?_)
  rcases Memory.mem_merge _ _ _ hc with ⟨d, hd, hdc⟩ | ⟨d, hd, hdc⟩
  · rw [← hdc]
    exact h.2.1 d hd
  · rw [← hdc, Sketch.size, hb]
    exact h'.2.1 d hd

theorem Sketch.new_inv (b : Nat) (h1 : 4 ≤ b) (h2 : b ≤ 14) :
    ({ valid := true, b := BitVec.ofNat 4 b, reg := [] } : Sketch).Inv := by
  refine ⟨Memory.wf_nil, fun c h => absurd h (by simp), fun _ => ?_, fun h => absurd h (by simp)⟩
  have : b % 2 ^ 4 = b := Nat.mod_eq_of_lt (by omega)
  simp only [Config.bMin, Config.bMax, BitVec.toNat_ofNat, this]
  omega

/-! ## The machine -/

theorem Response.ok_inv (rd : Word) : (⟨0, rd⟩ : Response).Inv := ⟨by simp, fun h => absurd rfl h⟩

theorem Response.fault_inv (c : FaultCode) : (⟨c.code, 0⟩ : Response).Inv := ⟨c.code_range.2, fun _ => rfl⟩

theorem recordFault_bit0 (c : FaultCode) (v : BitVec 8) (h : v.getLsbD 0 = false) : (recordFault c v).getLsbD 0 = false := by
  unfold recordFault
  rw [BitVec.getLsbD_or, h]
  cases c <;> rfl

/-- A fault keeps the invariant: a writer's WIDTH fault is raised in an open writer only. -/
theorem State.Inv.takeFault {s : State} (h : s.Inv) (u : UnitClass) (c : FaultCode) (ho : c = .width → u = .writer → s.w.wst = .opened) :
    (takeFault u c s).Inv where
  writer := by
    show (spoilWriter u c s.w).Inv
    rcases spoilWriter_cases u c s.w with hs | ⟨hu, hc, _⟩
    · rw [hs]
      exact h.writer
    · exact h.writer.spoil u c (fun _ => ho hc hu)
  reader := h.reader.spoil u c
  slots := h.slots
  fsr := recordFault_bit0 c _ h.fsr
  offer := h.offer
  resp := fun p hp => by
    obtain rfl : _ = p := Option.some.inj hp
    exact Response.fault_inv c

theorem State.Inv.respond {s : State} (h : s.Inv) (rd : Word) : (s.setResp (some ⟨0, rd⟩)).Inv :=
  { h with resp := fun p hp => by obtain rfl : _ = p := Option.some.inj hp; exact Response.ok_inv rd }

theorem State.Inv.setW {s : State} (h : s.Inv) {w : Writer} (hw : w.Inv) : (s.setW w).Inv := { h with writer := hw }

theorem State.Inv.setR {s : State} (h : s.Inv) {r : Reader} (hr : r.Inv) : (s.setR r).Inv := { h with reader := hr }

theorem State.Inv.setMm {s : State} (h : s.Inv) (v : Bool) : (s.setMm v).Inv := { h with }

theorem State.Inv.setInputs {s : State} (h : s.Inv) (l : List Input) : (s.setInputs l).Inv := { h with }

theorem State.Inv.setSlot {s : State} (h : s.Inv) (i : Nat) {k : Sketch} (hk : k.Inv) : (s.setSlot i k).Inv :=
  { h with
    slots := fun q hq => by
      rcases List.mem_or_eq_of_mem_set hq with hq | rfl
      · exact h.slots q hq
      · exact hk }

theorem State.Inv.slot {s : State} (h : s.Inv) {i : Nat} {k : Sketch} (hk : s.h[i]? = some k) : k.Inv :=
  h.slots k (List.mem_of_getElem? hk)

/-- Reset keeps the invariant. -/
theorem State.Inv.resetBlock {s : State} (h : s.Inv) : (resetBlock s).Inv where
  writer := Writer.reset_inv
  reader := Reader.reset_inv
  slots := fun k hk => by rw [List.eq_of_mem_replicate hk]; exact Sketch.reset_inv
  fsr := by simp
  offer := h.offer
  resp := h.resp

end Sys2Proof.Machine
end

