-- ==== Sys2Proof/Laws/Exec.lean ====
section
/-! SUPPORT. What a command can do, said once: it answers a next state, which is its fault or its effect with a response (spec
rules R75, R141, R144). Whole-machine proofs cite these lemmas and do not unfold a meaning. -/

namespace Sys2Proof.Machine

/-- What each command does to the state when it does not fault, before the response is written. -/
def Effect (i : Instr) (s u : State) : Prop :=
  match i with
  | .nop | .rdsr _ => u = s
  | .srst => u = resetBlock s
  | .wopen => u = s.setW openWriter
  | .wbits n p value => s.w.wst = .opened ∧ 1 ≤ n ∧ n + p ≤ 64 ∧ u = s.setW (put (slice value n p) n s.w)
  | .wbit bit => s.w.wst = .opened ∧ u = s.setW (putBit bit s.w)
  | .wv64 value => s.w.wst = .opened ∧ u = s.setW (putBytes (varintEncode value) s.w)
  | .wv32 value => s.w.wst = .opened ∧ u = s.setW (putBytes (varintEncode (value.zeroExtend 64)) s.w)
  | .walign => s.w.wst = .opened ∧ u = s.setW (alignWriter s.w)
  | .wflush => s.w.wst = .opened ∧ u = s.setW { alignWriter s.w with snkDone := true, wst := .flushed }
  | .ropen => u = s.setR (openReader s.offer)
  | .rbits n => s.r.rst = .opened ∧ 1 ≤ n ∧ n ≤ 64 ∧ n ≤ avail s.r ∧ ∃ v r, get n s.r = some (v, r) ∧ u = s.setR r
  | .rv64 => s.r.rst = .opened ∧ ∃ v r, getVarint 64 10 s.r = .ok (v, r) ∧ u = s.setR r
  | .rv32 => s.r.rst = .opened ∧ ∃ v r, getVarint 32 5 s.r = .ok (v, r) ∧ u = s.setR r
  | .ralign => s.r.rst = .opened ∧ u = s.setR (alignReader s.r)
  | .popcnt _ | .clz _ | .ctz _ | .nlpo2 _ | .ispow2 _ | .bswap32 _ | .bswap64 _ => u = s
  | .hnew n b => n < s.nsketch ∧ 4 ≤ b ∧ b ≤ 14 ∧ u = s.setSlot n ⟨true, BitVec.ofNat 4 b, []⟩
  | .hget _ _ => u = s
  | .hset n v idx => ∃ k, s.h[n]? = some k ∧ k.valid = true ∧ idx.toNat < k.size ∧
      u = s.setSlot n { k with reg := k.reg.write idx.toNat v }
  | .hrst n => ∃ k, s.h[n]? = some k ∧ k.valid = true ∧ u = s.setSlot n { k with reg := [] }
  | .hagg d n => ∃ kd kn, s.h[d]? = some kd ∧ s.h[n]? = some kn ∧ kd.valid = true ∧ kn.valid = true ∧
      ((kd.b ≠ kn.b ∧ u = s.setMm true) ∨ (kd.b = kn.b ∧ u = s.setSlot d { kd with reg := kd.reg.merge kn.reg }))

/-- A command's fault: one the table allows it (R141), and a writer's WIDTH only in an open writer (R143). -/
def Faults (i : Instr) (s t : State) : Prop :=
  ∃ c ∈ faultsOf i.op, t = takeFault (unitOf i.op) c s ∧ (c = .width → unitOf i.op = .writer → s.w.wst = .opened)

/-- The outcome of a command: a fault, or its effect and a response with success. -/
def Outcome (i : Instr) (s : State) : Prop :=
  (∃ t, exec i s = .next t ∧ Faults i s t) ∨ (∃ rd u, exec i s = .next (u.setResp (some ⟨0, rd⟩)) ∧ Effect i s u)

theorem Outcome.fault {i : Instr} {s : State} (c : FaultCode) (h : exec i s = raise (unitOf i.op) c s) (hc : c ∈ faultsOf i.op)
    (ho : c = .width → unitOf i.op = .writer → s.w.wst = .opened) : Outcome i s :=
  .inl ⟨_, h, c, hc, rfl, ho⟩

theorem Outcome.ok {i : Instr} {s : State} (rd : Word) (u : State) (h : exec i s = respond rd u) (he : Effect i s u) :
    Outcome i s :=
  .inr ⟨rd, u, h, he⟩

/-- The loop of a varint read gives no other fault than EOS and VARINT (R141). -/
theorem getGroups_error (width groups : Nat) : ∀ (k i : Nat) (acc : BitVec width) (r : Reader) (c : FaultCode),
    getGroups width groups k i acc r = .error c → c = .eos ∨ c = .varint
  | 0, _, _, _, c, h => .inr (by simpa [getGroups] using h.symm)
  | k + 1, i, acc, r, c, h => by
    rw [getGroups] at h
    split at h
    · exact .inl (by simpa using h.symm)
    · split at h
      · exact .inl (by simpa using h.symm)
      · simp only at h
        split at h
        · exact .inr (by simpa using h.symm)
        · split at h
          · exact getGroups_error width groups k _ _ _ c h
          · exact absurd h (by simp)

/-- The outcome of a writer command that needs an open writer. -/
theorem outcome_of_opened {i : Instr} {s : State} (body : Result) (hs : .state ∈ faultsOf i.op)
    (h : exec i s = if s.w.wst ≠ .opened then raise (unitOf i.op) .state s else body)
    (hb : s.w.wst = .opened → exec i s = body → Outcome i s) : Outcome i s := by
  by_cases ho : s.w.wst = .opened
  · exact hb ho (by rw [h, if_neg (by simpa using ho)])
  · exact .fault .state (by rw [h, if_pos ho]) hs (fun h => absurd h (by simp))

/-- The outcome of a reader command that needs an open reader. -/
theorem outcome_of_ropened {i : Instr} {s : State} (body : Result) (hs : .state ∈ faultsOf i.op)
    (h : exec i s = if s.r.rst ≠ .opened then raise (unitOf i.op) .state s else body)
    (hb : s.r.rst = .opened → exec i s = body → Outcome i s) : Outcome i s := by
  by_cases ho : s.r.rst = .opened
  · exact hb ho (by rw [h, if_neg (by simpa using ho)])
  · exact .fault .state (by rw [h, if_pos ho]) hs (fun h => absurd h (by simp))

/-- The outcome of a command that names one slot. -/
theorem outcome_of_slot {i : Instr} {s : State} (n : Nat) (body : Sketch → Result) (hu : unitOf i.op = .sketch)
    (hi : .index ∈ faultsOf i.op) (hs : .state ∈ faultsOf i.op) (h : exec i s = withSketch n s body)
    (hb : ∀ k, s.h[n]? = some k → k.valid = true → exec i s = body k → Outcome i s) : Outcome i s := by
  rcases withSketch_cases s n body with ⟨_, hw⟩ | ⟨k, _, _, hw⟩ | ⟨k, hk, hv, hw⟩
  · exact .fault .index (by rw [h, hw, hu]) hi (fun h => absurd h (by simp))
  · exact .fault .state (by rw [h, hw, hu]) hs (fun h => absurd h (by simp))
  · exact hb k hk hv (h.trans hw)

theorem exec_outcome (i : Instr) (s : State) : Outcome i s := by
  cases i with
  | nop => exact .ok 0 s rfl rfl
  | rdsr a =>
    cases h : statusRegister s a with
    | none => exact .fault .illegal (by simp [exec, execRdsr, h, unitOf, Instr.op]) (by simp [faultsOf, Instr.op]) (fun h => absurd h (by simp))
    | some v => exact .ok v s (by simp [exec, execRdsr, h]) rfl
  | srst => exact .ok 0 _ rfl rfl
  | wopen => exact .ok 0 _ rfl rfl
  | wbits n p value =>
    refine outcome_of_opened _ (by simp [faultsOf, Instr.op]) rfl (fun ho h => ?_)
    by_cases hw : n < Config.nbMin ∨ n + p > Config.nbMax
    · exact .fault .width (by rw [h, if_pos hw]; rfl) (by simp [faultsOf, Instr.op]) (fun _ _ => ho)
    · rw [if_neg hw] at h
      simp only [Config.nbMin, Config.nbMax] at hw
      exact .ok 0 _ h ⟨ho, by omega, by omega, rfl⟩
  | wbit bit => exact outcome_of_opened _ (by simp [faultsOf, Instr.op]) rfl (fun ho h => .ok 0 _ h ⟨ho, rfl⟩)
  | wv64 value => exact outcome_of_opened _ (by simp [faultsOf, Instr.op]) rfl (fun ho h => .ok 0 _ h ⟨ho, rfl⟩)
  | wv32 value => exact outcome_of_opened _ (by simp [faultsOf, Instr.op]) rfl (fun ho h => .ok 0 _ h ⟨ho, rfl⟩)
  | walign => exact outcome_of_opened _ (by simp [faultsOf, Instr.op]) rfl (fun ho h => .ok 0 _ h ⟨ho, rfl⟩)
  | wflush => exact outcome_of_opened _ (by simp [faultsOf, Instr.op]) rfl (fun ho h => .ok 0 _ h ⟨ho, rfl⟩)
  | ropen => exact .ok 0 _ rfl rfl
  | rbits n =>
    refine outcome_of_ropened _ (by simp [faultsOf, Instr.op]) rfl (fun ho h => ?_)
    by_cases hw : n < Config.nbMin ∨ n > Config.nbMax
    · exact .fault .width (by rw [h, if_pos hw]; rfl) (by simp [faultsOf, Instr.op]) (fun _ h => absurd h (by simp [unitOf, Instr.op]))
    · rw [if_neg hw] at h
      simp only [Config.nbMin, Config.nbMax] at hw
      by_cases ha : n > avail s.r
      · exact .fault .eos (by rw [h, if_pos ha]; rfl) (by simp [faultsOf, Instr.op]) (fun h => absurd h (by simp))
      · rw [if_neg ha] at h
        cases hg : get n s.r with
        | none => exact .fault .eos (by rw [h, hg]; rfl) (by simp [faultsOf, Instr.op]) (fun h => absurd h (by simp))
        | some x =>
          obtain ⟨v, r⟩ := x
          exact .ok v _ (by rw [h, hg]) ⟨ho, by omega, by omega, by omega, v, r, hg, rfl⟩
  | rv64 =>
    refine outcome_of_ropened _ (by simp [faultsOf, Instr.op]) rfl (fun ho h => ?_)
    cases hg : getVarint 64 Config.maxG64 s.r with
    | error c =>
      rw [hg] at h
      refine .fault c h ?_ (fun _ h => absurd h (by simp [unitOf, Instr.op]))
      rcases getGroups_error _ _ _ _ _ _ c hg with rfl | rfl <;> simp [faultsOf, Instr.op]
    | ok x =>
      obtain ⟨v, r⟩ := x
      exact .ok v _ (by rw [h, hg]) ⟨ho, v, r, hg, rfl⟩
  | rv32 =>
    refine outcome_of_ropened _ (by simp [faultsOf, Instr.op]) rfl (fun ho h => ?_)
    cases hg : getVarint 32 Config.maxG32 s.r with
    | error c =>
      rw [hg] at h
      refine .fault c h ?_ (fun _ h => absurd h (by simp [unitOf, Instr.op]))
      rcases getGroups_error _ _ _ _ _ _ c hg with rfl | rfl <;> simp [faultsOf, Instr.op]
    | ok x =>
      obtain ⟨v, r⟩ := x
      exact .ok (v.zeroExtend 64) _ (by rw [h, hg]) ⟨ho, v, r, hg, rfl⟩
  | ralign => exact outcome_of_ropened _ (by simp [faultsOf, Instr.op]) rfl (fun ho h => .ok 0 _ h ⟨ho, rfl⟩)
  | popcnt x => exact .ok _ s rfl rfl
  | clz x => exact .ok _ s rfl rfl
  | ctz x => exact .ok _ s rfl rfl
  | nlpo2 x =>
    by_cases h : nextPowerDefined x = true
    · exact .ok _ s (if_pos h) rfl
    · exact .fault .range (if_neg h) (by simp [faultsOf, Instr.op]) (fun h => absurd h (by simp))
  | ispow2 x => exact .ok _ s rfl rfl
  | bswap32 x => exact .ok _ s rfl rfl
  | bswap64 x => exact .ok _ s rfl rfl
  | hnew n b =>
    by_cases hn : s.nsketch ≤ n
    · exact .fault .index (if_pos hn) (by simp [faultsOf, Instr.op]) (fun h => absurd h (by simp))
    · have h : exec (.hnew n b) s = _ := if_neg hn
      by_cases hb : b < Config.bMin ∨ b > Config.bMax
      · exact .fault .range (by rw [h, if_pos hb]; rfl) (by simp [faultsOf, Instr.op]) (fun h => absurd h (by simp))
      · rw [if_neg hb] at h
        simp only [Config.bMin, Config.bMax] at hb
        exact .ok 0 _ h ⟨by omega, by omega, by omega, rfl⟩
  | hget n idx =>
    refine outcome_of_slot n _ rfl (by simp [faultsOf, Instr.op]) (by simp [faultsOf, Instr.op]) rfl (fun k hk hv h => ?_)
    by_cases hi : k.size ≤ idx.toNat
    · exact .fault .index (by rw [h, if_pos hi]; rfl) (by simp [faultsOf, Instr.op]) (fun h => absurd h (by simp))
    · exact .ok _ s (by rw [h, if_neg hi]) rfl
  | hset n v idx =>
    refine outcome_of_slot n _ rfl (by simp [faultsOf, Instr.op]) (by simp [faultsOf, Instr.op]) rfl (fun k hk hv h => ?_)
    by_cases hi : k.size ≤ idx.toNat
    · exact .fault .index (by rw [h, if_pos hi]; rfl) (by simp [faultsOf, Instr.op]) (fun h => absurd h (by simp))
    · exact .ok 0 _ (by rw [h, if_neg hi]) ⟨k, hk, hv, by omega, rfl⟩
  | hrst n =>
    exact outcome_of_slot n _ rfl (by simp [faultsOf, Instr.op]) (by simp [faultsOf, Instr.op]) rfl
      (fun k hk hv h => .ok 0 _ h ⟨k, hk, hv, rfl⟩)
  | hagg d n =>
    cases hd : s.h[d]? with
    | none => exact .fault .index (by simp [exec, execHagg, hd, unitOf, Instr.op]) (by simp [faultsOf, Instr.op]) (fun h => absurd h (by simp))
    | some kd =>
      cases hn : s.h[n]? with
      | none => exact .fault .index (by simp [exec, execHagg, hd, hn, unitOf, Instr.op]) (by simp [faultsOf, Instr.op]) (fun h => absurd h (by simp))
      | some kn =>
        by_cases hvd : kd.valid = false
        · exact .fault .state (by simp [exec, execHagg, hd, hn, hvd, unitOf, Instr.op]) (by simp [faultsOf, Instr.op]) (fun h => absurd h (by simp))
        · by_cases hvn : kn.valid = false
          · exact .fault .state (by simp [exec, execHagg, hd, hn, hvn, unitOf, Instr.op]) (by simp [faultsOf, Instr.op]) (fun h => absurd h (by simp))
          · have h1 : kd.valid = true := by simpa using hvd
            have h2 : kn.valid = true := by simpa using hvn
            by_cases hb : kd.b = kn.b
            · exact .ok 0 (s.setSlot d { kd with reg := kd.reg.merge kn.reg }) (by simp [exec, execHagg, hd, hn, h1, h2, hb])
                ⟨kd, kn, hd, hn, h1, h2, .inr ⟨hb, rfl⟩⟩
            · exact .ok 1 (s.setMm true) (by simp [exec, execHagg, hd, hn, h1, h2, hb]) ⟨kd, kn, hd, hn, h1, h2, .inl ⟨hb, rfl⟩⟩

/-- If a command answers a next state, it is a fault's or its effect's with a response. -/
theorem exec_cases {i : Instr} {s t : State} (h : exec i s = .next t) :
    Faults i s t ∨ ∃ rd u, t = u.setResp (some ⟨0, rd⟩) ∧ Effect i s u := by
  rcases exec_outcome i s with ⟨t', h', hf⟩ | ⟨rd, u, h', he⟩
  · obtain rfl : t' = t := by rw [h'] at h; exact Host.Outcome.next.inj h
    exact .inl hf
  · rw [h'] at h
    exact .inr ⟨rd, u, (Host.Outcome.next.inj h).symm, he⟩

/-- Every command answers a next state (R170). -/
theorem exec_next (i : Instr) (s : State) : ∃ t, exec i s = .next t := by
  rcases exec_outcome i s with ⟨t, h, _⟩ | ⟨_, u, h, _⟩
  · exact ⟨t, h⟩
  · exact ⟨_, h⟩

end Sys2Proof.Machine
end

