-- ==== Sys2Proof/Laws/PerInstr.lean ====
section
/-! SUPPORT. Statements made per instruction. Family `Encoding`: the encoder's word is in the command's row of the opcode table
(spec rules R72, R76). -/

namespace Sys2Proof.Laws.Encoding

/-- The word the encoder gives has the `OP` of the command, and 0 in every field the command's format does not use. -/
def Statement (i : Instr) : Prop := (encode i).1 &&& i.op.format.mask = i.op.matchWord

/-- The mask test on a word made of fields. -/
theorem of_fields (i : Instr) (h : unusedZero i.op.format i.fields.1 i.fields.2.1 i.fields.2.2) : Statement i :=
  (mask_match i.op _).mpr (by simpa [encode] using h)

theorem nop : Statement (.nop) := of_fields _ ⟨rfl, rfl, rfl⟩
theorem rdsr (a : Nat) : Statement (.rdsr a) := of_fields _ ⟨rfl, rfl⟩
theorem srst : Statement (.srst) := of_fields _ ⟨rfl, rfl, rfl⟩
theorem wopen : Statement (.wopen) := of_fields _ ⟨rfl, rfl, rfl⟩
theorem wbits (n : Nat) (p : Nat) (value : Word) : Statement (.wbits n p value) := of_fields _ rfl
theorem wbit (bit : Bool) : Statement (.wbit bit) := of_fields _ ⟨rfl, rfl, rfl⟩
theorem wv64 (value : Word) : Statement (.wv64 value) := of_fields _ ⟨rfl, rfl, rfl⟩
theorem wv32 (value : BitVec 32) : Statement (.wv32 value) := of_fields _ ⟨rfl, rfl, rfl⟩
theorem walign : Statement (.walign) := of_fields _ ⟨rfl, rfl, rfl⟩
theorem wflush : Statement (.wflush) := of_fields _ ⟨rfl, rfl, rfl⟩
theorem ropen : Statement (.ropen) := of_fields _ ⟨rfl, rfl, rfl⟩
theorem rbits (n : Nat) : Statement (.rbits n) := of_fields _ ⟨rfl, rfl⟩
theorem rv64 : Statement (.rv64) := of_fields _ ⟨rfl, rfl, rfl⟩
theorem rv32 : Statement (.rv32) := of_fields _ ⟨rfl, rfl, rfl⟩
theorem ralign : Statement (.ralign) := of_fields _ ⟨rfl, rfl, rfl⟩
theorem popcnt (x : Word) : Statement (.popcnt x) := of_fields _ ⟨rfl, rfl, rfl⟩
theorem clz (x : Word) : Statement (.clz x) := of_fields _ ⟨rfl, rfl, rfl⟩
theorem ctz (x : Word) : Statement (.ctz x) := of_fields _ ⟨rfl, rfl, rfl⟩
theorem nlpo2 (x : BitVec 32) : Statement (.nlpo2 x) := of_fields _ ⟨rfl, rfl, rfl⟩
theorem ispow2 (x : Word) : Statement (.ispow2 x) := of_fields _ ⟨rfl, rfl, rfl⟩
theorem bswap32 (x : BitVec 32) : Statement (.bswap32 x) := of_fields _ ⟨rfl, rfl, rfl⟩
theorem bswap64 (x : Word) : Statement (.bswap64 x) := of_fields _ ⟨rfl, rfl, rfl⟩
theorem hnew (s : Nat) (b : Nat) : Statement (.hnew s b) := of_fields _ rfl
theorem hget (s : Nat) (idx : Word) : Statement (.hget s idx) := of_fields _ ⟨rfl, rfl⟩
theorem hset (s : Nat) (v : Byte) (idx : Word) : Statement (.hset s v idx) := of_fields _ rfl
theorem hrst (s : Nat) : Statement (.hrst s) := of_fields _ ⟨rfl, rfl⟩
theorem hagg (d : Nat) (s : Nat) : Statement (.hagg d s) := of_fields _ rfl

end Sys2Proof.Laws.Encoding
end

