-- ==== Sys2Proof/Tests/Slice0.lean ====
section
/-! SUPPORT. The model's own tests. Expected results come from the spec: its encoding table (R76, R80) and its test vectors V1 to
V173, named in the comments. The last part holds, for every statement with hypotheses, states and operands that meet them. -/

open Sys2Proof Sys2Proof.Machine

namespace Sys2Proof.Tests

/-! ## Helpers -/

/-- The response of an outcome. -/
def response (r : Result) : Option Response :=
  match r with
  | .next t => t.resp
  | .fault _ => none
  | .refused _ => none

/-- Something of the state of an outcome. -/
def after {α : Type} (f : State → α) (r : Result) : Option α :=
  match r with
  | .next t => some (f t)
  | .fault _ => none
  | .refused _ => none

/-- The reset state with an open writer whose partial byte holds the top `n` bits of `cur`. -/
def writing (n : BitVec 3) (cur : Byte) : State := { State.reset with w := { openWriter with wbit := n, wcur := cur } }

/-- The reset state with an open reader at the start of a packet. -/
def reading (p : List Byte) : State := { State.reset with r := openReader p }

/-- The reset state with an open reader inside byte `pos` of a packet, `n` of whose bits have been read. -/
def readingAt (p : List Byte) (pos : Word) (n : BitVec 3) (cur : Byte) : State :=
  { State.reset with r := { openReader p with rpos := pos, rbit := n, rcur := cur } }

/-- The reset state with given slots. -/
def holding (h : List Sketch) : State := { State.reset with h := h }

/-- A valid sketch. -/
def sketch (b : Nat) (m : Memory) : Sketch := { valid := true, b := BitVec.ofNat 4 b, reg := m }

/-- The reset state with one move to come. -/
def pending (i : Input) : State := { State.reset with inputs := [i] }

/-! ## Well-formedness: an ill-formed term for each check, refused -/

theorem test_wf_rdsr : (Instr.rdsr 256).wellFormed = false := by decide
theorem test_wf_wbits_n : (Instr.wbits 256 0 0).wellFormed = false := by decide
theorem test_wf_wbits_p : (Instr.wbits 0 256 0).wellFormed = false := by decide
theorem test_wf_rbits : (Instr.rbits 256).wellFormed = false := by decide
theorem test_wf_hnew_s : (Instr.hnew 256 4).wellFormed = false := by decide
theorem test_wf_hnew_b : (Instr.hnew 0 256).wellFormed = false := by decide
theorem test_wf_hget : (Instr.hget 256 0).wellFormed = false := by decide
theorem test_wf_hset : (Instr.hset 256 0 0).wellFormed = false := by decide
theorem test_wf_hrst : (Instr.hrst 256).wellFormed = false := by decide
theorem test_wf_hagg_d : (Instr.hagg 256 0).wellFormed = false := by decide
theorem test_wf_hagg_s : (Instr.hagg 0 256).wellFormed = false := by decide

/-! ## Decoding: a word of each command, written out from R76 and R80 -/

theorem test_decode_nop : decode 0x00000000 0 = .ok .nop := rfl
theorem test_decode_rdsr : decode 0x01140000 0 = .ok (.rdsr 0x14) := rfl
theorem test_decode_srst : decode 0x02000000 0 = .ok .srst := rfl
theorem test_decode_wopen : decode 0x10000000 0 = .ok .wopen := rfl
/-- The spec's example of R80. -/
theorem test_decode_wbits : decode 0x11080400 0xABCD = .ok (.wbits 8 4 0xABCD) := rfl
/-- V52: only `DATA[0]` is read. -/
theorem test_decode_wbit : decode 0x12000000 0xFFFFFFFFFFFFFFFE = .ok (.wbit false) := rfl
theorem test_decode_wv64 : decode 0x13000000 0x100000000 = .ok (.wv64 0x100000000) := rfl
/-- V74: `DATA[63:32]` is ignored. -/
theorem test_decode_wv32 : decode 0x14000000 0x10000012C = .ok (.wv32 0x12C) := rfl
theorem test_decode_walign : decode 0x15000000 0 = .ok .walign := rfl
theorem test_decode_wflush : decode 0x16000000 0 = .ok .wflush := rfl
theorem test_decode_ropen : decode 0x20000000 0 = .ok .ropen := rfl
/-- V9: an operand out of its range is not illegal. -/
theorem test_decode_rbits : decode 0x21410000 0 = .ok (.rbits 65) := rfl
theorem test_decode_rv64 : decode 0x23000000 0 = .ok .rv64 := rfl
theorem test_decode_rv32 : decode 0x24000000 0 = .ok .rv32 := rfl
theorem test_decode_ralign : decode 0x25000000 0 = .ok .ralign := rfl
theorem test_decode_popcnt : decode 0x30000000 0xF0F0 = .ok (.popcnt 0xF0F0) := rfl
theorem test_decode_clz : decode 0x31000000 0x80 = .ok (.clz 0x80) := rfl
theorem test_decode_ctz : decode 0x32000000 0x80 = .ok (.ctz 0x80) := rfl
/-- V173. -/
theorem test_decode_nlpo2 : decode 0x33000000 0xFFFFFFFF00000020 = .ok (.nlpo2 32) := rfl
theorem test_decode_ispow2 : decode 0x34000000 3 = .ok (.ispow2 3) := rfl
theorem test_decode_bswap32 : decode 0x35000000 0x0123456789ABCDEF = .ok (.bswap32 0x89ABCDEF) := rfl
theorem test_decode_bswap64 : decode 0x36000000 0x0123456789ABCDEF = .ok (.bswap64 0x0123456789ABCDEF) := rfl
theorem test_decode_hnew : decode 0x40030500 0 = .ok (.hnew 3 5) := rfl
theorem test_decode_hget : decode 0x41020000 16 = .ok (.hget 2 16) := rfl
/-- The spec's example of R80. -/
theorem test_decode_hset : decode 0x42020011 5 = .ok (.hset 2 17 5) := rfl
theorem test_decode_hrst : decode 0x43020000 0 = .ok (.hrst 2) := rfl
/-- V13: destination in `A`, source in `B`. -/
theorem test_decode_hagg : decode 0x44010200 0 = .ok (.hagg 1 2) := rfl

/-- V2, V5, V7, V10, V12, V14: a field the format does not use is not 0. -/
theorem test_decode_unused_field :
    [0x11080401, 0x00000001, 0x42020111, 0x21400100, 0x10010000, 0x44010201, 0x00010000, 0x30000001].all
      (fun w => match decode w 0 with | .error .fieldNotZero => true | _ => false) = true := by decide

/-- V3, V4, V15: reserved `OP` values. -/
theorem test_decode_reserved :
    [0x22000000, 0xFF000000, 0x03000000, 0x17000000, 0x26000000, 0x37000000, 0x45000000].all
      (fun w => match decode w 0 with | .error .reservedOp => true | _ => false) = true := by decide

/-- The encoder on the spec's example of R80. -/
theorem test_encode_wbits : encode (.wbits 8 4 0xABCD) = (0x11080400, 0xABCD) := rfl
theorem test_encode_hset : encode (.hset 2 17 5) = (0x42020011, 5) := rfl

/-- A 32-bit row of the opcode table has `DATA` 0. -/
theorem test_tableWord : decodeTableWord 32 0x42020011 = some (.hset 2 17 0) := rfl
theorem test_tableWord_illegal : decodeTableWord 32 0x22000000 = none := rfl

/-! ## One step of each command -/

/-- V16, and an idle block. -/
theorem test_nop : response (exec .nop State.reset) = some ⟨0, 0⟩ := by decide
/-- V17. -/
theorem test_rdsr_cfg : response (exec (.rdsr 6) State.reset) = some ⟨0, 0x104⟩ := by decide
/-- V85. -/
theorem test_rdsr_wsr : response (exec (.rdsr 1) (writing 3 0xA0)) = some ⟨0, 0xA031⟩ := by decide
/-- V19d, V19f. -/
theorem test_srst : after (fun t => (t.fsr, t.mm, t.w)) (exec .srst { writing 3 0xA0 with fsr := 0xCE, mm := true }) =
    some (0, false, Writer.reset) := by decide
/-- P4 step 7: WOPEN after a fault. -/
theorem test_wopen : after (fun t => (t.w, t.fsr)) (exec .wopen
    { State.reset with w := ⟨.faulted, 0, 5, 0xF8, [], false⟩, fsr := 0x0C }) = some (⟨.opened, 0, 0, 0, [], false⟩, 0x0C) := by
  decide
/-- V21: a slice across a byte boundary. -/
theorem test_wbits : after State.w (exec (.wbits 8 4 0xABCD) (writing 3 0xA0)) =
    some ⟨.opened, 1, 3, 0x80, [0xB7], false⟩ := by decide +kernel
/-- V42: WIDTH keeps the cursor. -/
theorem test_wbits_width : after (fun t => (t.w, t.fsr, t.resp)) (exec (.wbits 0 0 0) { writing 2 0xC0 with fsr := 0x08 }) =
    some (⟨.faulted, 0, 2, 0xC0, [], false⟩, 0x0C, some ⟨2, 0⟩) := by decide
/-- V50, its eighth bit. -/
theorem test_wbit : after State.w (exec (.wbit false) (writing 7 0xB2)) =
    some ⟨.opened, 1, 0, 0, [0xB2], false⟩ := by decide
/-- V76: a varint off a byte boundary. -/
theorem test_wv64 : after State.w (exec (.wv64 300) (writing 1 0x80)) =
    some ⟨.opened, 2, 1, 0, [0xD6, 0x01], false⟩ := by decide +kernel
/-- V70: ten bytes. -/
theorem test_wv64_max : after (fun t => t.w.snk) (exec (.wv64 0xFFFFFFFFFFFFFFFF) (writing 0 0)) =
    some [0xFF, 0xFF, 0xFF, 0xFF, 0xFF, 0xFF, 0xFF, 0xFF, 0xFF, 0x01] := by decide +kernel
/-- V73. -/
theorem test_wv32 : after (fun t => t.w.snk) (exec (.wv32 0xFFFFFFFF) (writing 0 0)) =
    some [0xFF, 0xFF, 0xFF, 0xFF, 0x0F] := by decide +kernel
/-- V84, its WALIGN. -/
theorem test_walign : after State.w (exec .walign
    { State.reset with w := ⟨.opened, 1, 1, 0, [0xFF], false⟩ }) = some ⟨.opened, 2, 0, 0, [0xFF, 0], false⟩ := by decide
/-- V22. -/
theorem test_wflush : after State.w (exec .wflush
    { State.reset with w := ⟨.opened, 1, 3, 0x80, [0xB7], false⟩ }) = some ⟨.flushed, 2, 0, 0, [0xB7, 0x80], true⟩ := by decide
/-- V81: a second flush. -/
theorem test_wflush_again : response (exec .wflush { State.reset with w := ⟨.flushed, 0, 0, 0, [], true⟩ }) =
    some ⟨3, 0⟩ := by decide
/-- P1 step 7. -/
theorem test_ropen : after State.r (exec .ropen { State.reset with offer := [0xAB, 0x58] }) =
    some ⟨.opened, 0, 0, 0, [0xAB, 0x58]⟩ := by decide
/-- V101: a field across a byte boundary. -/
theorem test_rbits : after (fun t => (t.r, t.resp)) (exec (.rbits 8) (readingAt [0xA5, 0x3C] 0 4 0xA5)) =
    some (⟨.opened, 1, 4, 0x3C, [0xA5, 0x3C]⟩, some ⟨0, 0x53⟩) := by decide +kernel
/-- V102: EOS keeps the cursor. -/
theorem test_rbits_eos : after (fun t => (t.r, t.resp)) (exec (.rbits 5) (readingAt [0xA5, 0x3C] 1 4 0x3C)) =
    some (⟨.faulted, 1, 4, 0x3C, [0xA5, 0x3C]⟩, some ⟨4, 0⟩) := by decide
/-- V141: a varint off a byte boundary. -/
theorem test_rv64 : after (fun t => (t.r, t.resp)) (exec .rv64 (readingAt [0xD6, 0x01, 0x00] 0 1 0xD6)) =
    some (⟨.opened, 2, 1, 0, [0xD6, 0x01, 0x00]⟩, some ⟨0, 0x12C⟩) := by decide +kernel
/-- V123: bit 64 set in the tenth byte. -/
theorem test_rv64_varint : response (exec .rv64 (reading [0xFF, 0xFF, 0xFF, 0xFF, 0xFF, 0xFF, 0xFF, 0xFF, 0xFF, 0x02])) =
    some ⟨5, 0⟩ := by decide +kernel
/-- V129. -/
theorem test_rv32 : response (exec .rv32 (reading [0xFF, 0xFF, 0xFF, 0xFF, 0x0F])) = some ⟨0, 0xFFFFFFFF⟩ := by decide +kernel
/-- V130: bit 32 set. -/
theorem test_rv32_varint : response (exec .rv32 (reading [0xFF, 0xFF, 0xFF, 0xFF, 0x1F])) = some ⟨5, 0⟩ := by decide +kernel
/-- V142. -/
theorem test_ralign : after State.r (exec .ralign (readingAt [0xD6, 0x01, 0x00] 2 1 0)) =
    some ⟨.opened, 3, 0, 0, [0xD6, 0x01, 0x00]⟩ := by decide
/-- V154, V156. -/
theorem test_popcnt : response (exec (.popcnt 0xF0F0) State.reset) = some ⟨0, 8⟩ := by decide +kernel
theorem test_popcnt_ones : response (exec (.popcnt 0xFFFFFFFFFFFFFFFF) State.reset) = some ⟨0, 64⟩ := by decide +kernel
/-- V150, V157. -/
theorem test_clz_zero : response (exec (.clz 0) State.reset) = some ⟨0, 64⟩ := by decide +kernel
theorem test_clz : response (exec (.clz 0x0123456789ABCDEF) State.reset) = some ⟨0, 7⟩ := by decide +kernel
/-- V150, V154. -/
theorem test_ctz_zero : response (exec (.ctz 0) State.reset) = some ⟨0, 64⟩ := by decide +kernel
theorem test_ctz : response (exec (.ctz 0xF0F0) State.reset) = some ⟨0, 4⟩ := by decide +kernel
/-- V165, V172. -/
theorem test_nlpo2 : response (exec (.nlpo2 32) State.reset) = some ⟨0, 64⟩ := by decide +kernel
theorem test_nlpo2_negative : after (fun t => (t.fsr, t.resp)) (exec (.nlpo2 0xFFFFFFFF) State.reset) =
    some (0x80, some ⟨7, 0⟩) := by decide +kernel
/-- S6. -/
theorem test_ispow2_zero : response (exec (.ispow2 0) State.reset) = some ⟨0, 1⟩ := by decide
theorem test_ispow2_three : response (exec (.ispow2 3) State.reset) = some ⟨0, 0⟩ := by decide
/-- V157. -/
theorem test_bswap32 : response (exec (.bswap32 0x89ABCDEF) State.reset) = some ⟨0, 0xEFCDAB89⟩ := by decide
theorem test_bswap64 : response (exec (.bswap64 0x0123456789ABCDEF) State.reset) = some ⟨0, 0xEFCDAB8967452301⟩ := by decide
/-- V93: the slot number is checked before `b`. -/
theorem test_hnew_order : response (exec (.hnew 4 3) State.reset) = some ⟨6, 0⟩ := by decide
/-- V19b. -/
theorem test_hnew : after (fun t => t.h[0]?) (exec (.hnew 0 14) State.reset) = some (some ⟨true, 14, []⟩) := by decide
/-- V96, V98. -/
theorem test_hget : response (exec (.hget 0 15) (holding [sketch 4 [(15, 9)]])) = some ⟨0, 9⟩ := by decide
theorem test_hget_index : response (exec (.hget 0 0xFFFFFFFFFFFFFFFF) (holding [sketch 4 []])) = some ⟨6, 0⟩ := by decide
/-- V99, V99a. -/
theorem test_hset : after State.h (exec (.hset 0 255 15) (holding [sketch 4 [(3, 5)]])) =
    some [sketch 4 [(3, 5), (15, 255)]] := by decide
theorem test_hset_index : after (fun t => (t.h, t.resp)) (exec (.hset 0 1 16) (holding [sketch 4 []])) =
    some ([sketch 4 []], some ⟨6, 0⟩) := by decide
/-- V99b. -/
theorem test_hrst : after State.h (exec (.hrst 0) (holding [sketch 4 [(15, 255)]])) = some [sketch 4 []] := by decide
/-- P2 step 14. -/
theorem test_hagg : after State.h (exec (.hagg 1 0)
    (holding [sketch 4 [(3, 5), (7, 6), (15, 255)], sketch 4 [(0, 128), (3, 9), (7, 2), (15, 127)]])) =
    some [sketch 4 [(3, 5), (7, 6), (15, 255)], sketch 4 [(0, 128), (3, 9), (7, 6), (15, 255)]] := by decide
/-- P2 step 17. -/
theorem test_hagg_mismatch : after (fun t => (t.h, t.mm, t.fsr, t.resp)) (exec (.hagg 0 1)
    (holding [sketch 4 [(3, 5)], sketch 5 [(3, 9)]])) = some ([sketch 4 [(3, 5)], sketch 5 [(3, 9)]], true, 0, some ⟨0, 1⟩) := by
  decide

/-! ## The step -/

/-- V3: an illegal word. -/
theorem test_step_illegal : after (fun t => (t.fsr, t.resp, t.inputs)) (step (pending (.command 0x22000000 0))) =
    some (2, some ⟨1, 0⟩, []) := by decide
/-- A placed word runs as the first command after reset. -/
theorem test_withFetchWord : response (step (State.reset.withFetchWord 32 0x01060000)) = some ⟨0, 0x104⟩ := by decide
/-- R171: the reset signal. -/
theorem test_step_reset : after (fun t => (t.w, t.fsr, t.resp)) (step { pending .reset with w := openWriter, fsr := 8 }) =
    some (Writer.reset, 0, none) := by decide
theorem test_step_packet : after State.offer (step (pending (.packet [0xA5, 0x3C]))) = some [0xA5, 0x3C] := by decide

/-! ## Witnesses: what meets the hypotheses of each statement, clause by clause -/

theorem witness_StepRunsDecodedCommand : (pending (.command 0x11080400 0xABCD)).inputs = .command 0x11080400 0xABCD :: [] ∧
    decode 0x11080400 0xABCD = .ok (.wbits 8 4 0xABCD) := ⟨rfl, rfl⟩

theorem witness_IllegalWordFaultsIllegal :
    ((pending (.command 0x22000000 0)).inputs = .command 0x22000000 0 :: [] ∧ decode 0x22000000 0 = .error .reservedOp) ∧
    ((pending (.command 1 0)).inputs = .command 1 0 :: [] ∧ decode 1 0 = .error .fieldNotZero) := ⟨⟨rfl, rfl⟩, rfl, rfl⟩

theorem witness_DecodeOfEncode : (Instr.wbits 255 255 0xFFFFFFFFFFFFFFFF).wellFormed = true ∧
    (Instr.hset 255 255 0).wellFormed = true := by decide

theorem witness_EncodeOfDecode : decode 0x14000000 0x10000012C = .ok (.wv32 0x12C) := rfl

theorem witness_IgnoredDataBitsChangeNothing : ∀ o : Op, o.code = (0x12000000 : CmdWord).extractLsb' 24 8 →
    (0xFFFFFFFFFFFFFFFE : Word) &&& o.dataMask = 0 &&& o.dataMask := by
  intro o
  cases o <;> decide

theorem witness_ResetSignalEqualsSrst : (pending .reset).inputs = .reset :: [] := rfl

theorem witness_PresentedPacketIsOffered :
    ((pending (.packet [])).inputs = .packet [] :: [] ∧ ([] : List Byte).length < 2 ^ 61) ∧
    (List.replicate (2 ^ 61 - 1) (0 : Byte)).length < 2 ^ 61 ∧ 2 ^ 61 ≤ (List.replicate (2 ^ 61) (0 : Byte)).length := by
  refine ⟨⟨rfl, by norm_num⟩, ?_, ?_⟩ <;> rw [List.length_replicate]
  norm_num

theorem witness_BlockWaitsForInput : State.reset.inputs = [] := rfl

theorem witness_RdsrReadsTheMap : State.reset.h[0]? = some Sketch.reset ∧ State.reset.h[3]? = some Sketch.reset ∧
    State.reset.h.length < 2 ^ 8 ∧ ∀ a ∈ [0x07, 0x0F, 0x14, 0xFF], (0x06 < a ∧ a < 0x10) ∨ 0x10 + State.reset.h.length ≤ a := by decide

/-- A writer that is not open, and an open one: the hypotheses of the writer statements. -/
theorem witness_writer_closed : State.reset.w.wst ≠ .opened ∧
    ({ State.reset with w := ⟨.faulted, 0, 0, 0, [], false⟩ } : State).w.wst ≠ .opened := by decide
theorem witness_writer_open : (writing 0 0).w.wst = .opened ∧ (writing 0 0).w.wbit = 0 ∧
    (writing 7 0xFE).w.wst = .opened ∧ (writing 7 0xFE).w.wbit ≠ 0 := by decide

/-- V45, V46, V47, V48: the edges of WBITS. -/
theorem witness_WbitsPutsTheSlice : (writing 0 0).w.wst = .opened ∧
    (∀ c ∈ [(0, 0), (0, 64), (1, 64), (33, 32), (60, 5), (65, 0), (255, 255)], c.1 = 0 ∨ 64 < c.1 + c.2) ∧
    (∀ c ∈ [(64, 0), (63, 1), (1, 63), (1, 0)], 1 ≤ c.1 ∧ c.1 + c.2 ≤ 64) := by decide

theorem witness_AligningPadsWithZeroBits : (writing 7 0xFE).w.wst = .opened ∧ (writing 7 0xFE).w.padded ∧
    (writing 1 0x80).w.padded := by
  refine ⟨rfl, ?_, ?_⟩ <;> (unfold Writer.padded; decide)

theorem witness_reader_closed : State.reset.r.rst ≠ .opened := by decide

/-- The reader statements need the invariant of the reader; here is one at the start and one inside a byte. -/
theorem reading_inv (p : List Byte) (h : p.length < 2 ^ 61) : (reading p).r.Inv := openReader_inv p h
theorem readingAt_inv : (readingAt [0xD6, 0x80] 1 1 0x80).r.Inv := by
  refine ⟨by decide, by decide, by decide, by decide, by decide⟩

/-- WIDTH at 0 and 65; EOS one bit past the end; the whole packet, 64 bits of it, and one bit of it. -/
theorem witness_RbitsReadsTheNextBits : (reading [0xFF]).r.rst = .opened ∧
    (∀ n ∈ [0, 65, 255], n = 0 ∨ 64 < n) ∧
    8 * (reading [0xFF]).r.src.length < (reading [0xFF]).r.position + 9 ∧
    ((reading [0xFF]).r.Inv ∧ (reading [0xFF]).r.position + 8 ≤ 8 * (reading [0xFF]).r.src.length) ∧
    ((reading [1, 2, 3, 4, 5, 6, 7, 8]).r.Inv ∧ (reading [1, 2, 3, 4, 5, 6, 7, 8]).r.position + 64 ≤ 8 * 8) ∧
    ((readingAt [0xD6, 0x80] 1 1 0x80).r.Inv ∧ (readingAt [0xD6, 0x80] 1 1 0x80).r.position + 7 ≤ 8 * 2) :=
  ⟨rfl, by decide, by decide, ⟨reading_inv _ (by norm_num), by decide⟩, ⟨reading_inv _ (by norm_num), by decide⟩, readingAt_inv, by decide⟩

/-- V122: the largest 64-bit value in ten bytes; V125: a padded zero. -/
theorem witness_Rv64_accepts :
    ((reading [255, 255, 255, 255, 255, 255, 255, 255, 255, 1]).r.rest =
        bytesBits [255, 255, 255, 255, 255, 255, 255, 255, 255, 1] ++ [] ∧
      isVarint [255, 255, 255, 255, 255, 255, 255, 255, 255, 1] ∧
      groupsValue [255, 255, 255, 255, 255, 255, 255, 255, 255, 1] = 2 ^ 64 - 1) ∧
    isVarint [128, 128, 128, 128, 128, 128, 128, 128, 128, 0] ∧
    groupsValue [128, 128, 128, 128, 128, 128, 128, 128, 128, 0] = 0 := by
  refine ⟨⟨rfl, ⟨[255, 255, 255, 255, 255, 255, 255, 255, 255], 1, rfl, ?_, rfl⟩, rfl⟩,
    ⟨[128, 128, 128, 128, 128, 128, 128, 128, 128], 0, rfl, ?_, rfl⟩, rfl⟩ <;> (unfold allContinue; decide)

/-- V127, and a packet that ends seven bits after the cursor. -/
theorem witness_Rv64_eos :
    ((reading [0x80, 0x80]).r.rest = bytesBits [0x80, 0x80] ++ [] ∧ allContinue [0x80, 0x80]) ∧
    ((readingAt [0xD6, 0x80] 1 1 0x80).r.rest = bytesBits [] ++ List.replicate 7 false ∧ allContinue [] ∧
      (List.replicate 7 false).length < 8) := by
  refine ⟨⟨rfl, ?_⟩, rfl, ?_, by decide⟩ <;> (unfold allContinue; decide)

/-- V123 and V126: a tenth byte with a bit beyond the width, and one with its flag set. -/
theorem witness_Rv64_varint :
    (reading [255, 255, 255, 255, 255, 255, 255, 255, 255, 2]).r.rest =
      bytesBits ([255, 255, 255, 255, 255, 255, 255, 255, 255] ++ [2]) ++ [] ∧
    allContinue [255, 255, 255, 255, 255, 255, 255, 255, 255] ∧
    2 ^ (64 - 7 * (10 - 1)) ≤ (2 : Byte).toNat % 128 ∧ (128 : Byte).getLsbD 7 = true := by
  refine ⟨rfl, ?_, by decide, by decide⟩
  unfold allContinue
  decide

/-- V129, V133, V131, and four flagged bytes at the end of a packet. -/
theorem witness_Rv32ReadsTheVarint :
    ((reading [255, 255, 255, 255, 15]).r.rest = bytesBits [255, 255, 255, 255, 15] ++ [] ∧
      isVarint [255, 255, 255, 255, 15] ∧ groupsValue [255, 255, 255, 255, 15] = 2 ^ 32 - 1) ∧
    ((reading [128, 128, 128, 128]).r.rest = bytesBits [128, 128, 128, 128] ++ [] ∧ allContinue [128, 128, 128, 128]) ∧
    ((reading [128, 128, 128, 128, 16]).r.rest = bytesBits ([128, 128, 128, 128] ++ [16]) ++ [] ∧
      2 ^ (32 - 7 * (5 - 1)) ≤ (16 : Byte).toNat % 128) ∧
    ((reading [128, 128, 128, 128, 128]).r.rest = bytesBits ([128, 128, 128, 128] ++ [128]) ++ [] ∧
      (128 : Byte).getLsbD 7 = true) := by
  refine ⟨⟨rfl, ⟨[255, 255, 255, 255], 15, rfl, ?_, rfl⟩, rfl⟩, ⟨rfl, ?_⟩, ⟨rfl, by decide⟩, rfl, by decide⟩ <;>
    (unfold allContinue; decide)

theorem witness_RalignSkipsThePartialByte : (reading [0xFF]).r.rbit = 0 ∧ (readingAt [0xFF] 0 7 0xFF).r.rst = .opened ∧
    (readingAt [0xFF] 0 7 0xFF).r.rbit ≠ 0 := by decide

/-- Legal fields of every kind, at the edges; and a reader that is offered what a writer made. -/
theorem witness_RoundTripOfFields :
    (∀ f ∈ [FieldWrite.bits 64 0 5, .bits 1 63 5, .bit true, .varint64 300, .varint32 4, .align], f.legal) ∧
    ∃ t, runCommands (.wopen :: [FieldWrite.bit true].map FieldWrite.command ++ [.wflush]) State.reset =
        some (List.replicate 3 ⟨0, 0⟩, t) ∧
      ({ State.reset with offer := t.w.snk } : State).offer = t.w.snk ∧ t.w.snk = [0x80] ∧ t.w.snk.length < 2 ^ 61 := by
  refine ⟨?_, _, rfl, rfl, rfl, by decide⟩
  intro f hf
  fin_cases hf <;> simp [FieldWrite.legal]

theorem witness_ClzCtz : (0 : Word) = 0 ∧ (1 : Word) ≠ 0 ∧ (0x8000000000000000 : Word) ≠ 0 := by decide

/-- V160, V169, V170, V172: the edges of NLPO2. -/
theorem witness_Nlpo2IsTheNextPower : (0xFFFFFFFF : BitVec 32).toInt < 0 ∧ (0x80000000 : BitVec 32).toInt < 0 ∧
    2 ^ 30 ≤ (0x40000000 : BitVec 32).toInt ∧
    (0 ≤ (0x3FFFFFFF : BitVec 32).toInt ∧ (0x3FFFFFFF : BitVec 32).toInt < 2 ^ 30) ∧
    (0 ≤ (0 : BitVec 32).toInt ∧ (0 : BitVec 32).toInt < 2 ^ 30) := by decide

theorem witness_PrimitivesObeyTheLaws : (1 : Word) ≠ 0 ∧ (0x3FFFFFFF : BitVec 32).toNat < 2 ^ 30 ∧
    1 ≤ (0x3FFFFFFF : BitVec 32).toNat ∧ (0 : BitVec 32).toNat < 2 ^ 30 := by decide

/-- V90 to V95, at the edges of the slot number and of `b`. -/
theorem witness_HnewMakesAZeroedSketch : State.reset.h.length ≤ 4 ∧ 3 < State.reset.h.length ∧
    (∀ b ∈ [0, 3, 15, 255], b < 4 ∨ 14 < b) ∧ ∀ b ∈ [4, 14], 4 ≤ b ∧ b ≤ 14 := by decide

/-- Two sketches with `B` 4, one with 14, and a slot without one. -/
def slots : List Sketch := [sketch 4 [(3, 5), (15, 255)], sketch 4 [(0, 128), (3, 9)], sketch 14 [], Sketch.reset]

/-- The statements about HGET, HSET, HRST: a slot the block lacks, one without a sketch, and the last legal and the first
illegal index of the smallest and the largest sketch. -/
theorem witness_HgetHsetHrst : (holding slots).h.length ≤ 4 ∧ (holding slots).h[3]? = some Sketch.reset ∧
    Sketch.reset.valid = false ∧
    (holding slots).h[0]? = some (sketch 4 [(3, 5), (15, 255)]) ∧ (sketch 4 [(3, 5), (15, 255)]).valid = true ∧
    Memory.wf (sketch 4 [(3, 5), (15, 255)]).reg ∧
    (15 : Word).toNat < 2 ^ (sketch 4 [(3, 5), (15, 255)]).b.toNat ∧
    2 ^ (sketch 4 [(3, 5), (15, 255)]).b.toNat ≤ (16 : Word).toNat ∧
    (16383 : Word).toNat < 2 ^ (sketch 14 []).b.toNat ∧ 2 ^ (sketch 14 []).b.toNat ≤ (16384 : Word).toNat := by decide

/-- HAGG: a slot number out of range, a slot without a sketch on either side, a mismatch, and a merge. -/
theorem witness_HaggMergesByMaximum : (holding slots).h.length ≤ 4 ∧
    (holding slots).h[3]? = some Sketch.reset ∧ (holding slots).h[0]? = some (sketch 4 [(3, 5), (15, 255)]) ∧
    (holding slots).h[1]? = some (sketch 4 [(0, 128), (3, 9)]) ∧ (holding slots).h[2]? = some (sketch 14 []) ∧
    Sketch.reset.valid = false ∧ (sketch 4 [(3, 5), (15, 255)]).valid = true ∧ (sketch 14 []).valid = true ∧
    (sketch 4 [(3, 5), (15, 255)]).b ≠ (sketch 14 []).b ∧ Memory.wf (sketch 4 [(3, 5), (15, 255)]).reg ∧
    Memory.wf (sketch 4 [(0, 128), (3, 9)]).reg := by decide

theorem sketch_inv (b : Nat) (m : Memory) (h1 : 4 ≤ b) (h2 : b ≤ 14) (hm : Memory.wf m)
    (hr : ∀ c ∈ m, c.1 < 2 ^ (BitVec.ofNat 4 b).toNat) : (sketch b m).Inv :=
  (Sketch.new_inv b h1 h2).withReg rfl m hm hr

theorem holding_inv (h : List Sketch) (hk : ∀ k ∈ h, k.Inv) : (holding h).Inv where
  writer := Writer.reset_inv
  reader := Reader.reset_inv
  slots := hk
  fsr := by simp [holding, State.reset, State.resetFor]
  offer := by simp [holding, State.reset, State.resetFor, Config.packetBound]
  resp := fun p hp => by cases hp

/-- The merge laws: two slots hold one sketch, two the other, and the invariant holds. -/
def twins : List Sketch := [sketch 4 [(3, 5)], sketch 4 [(3, 9)], sketch 4 [(3, 5)], sketch 4 [(3, 9)]]

theorem witness_merge_laws : (holding twins).Inv ∧ (holding twins).h[0]? = some (sketch 4 [(3, 5)]) ∧
    (holding twins).h[2]? = some (sketch 4 [(3, 5)]) ∧ (holding twins).h[1]? = some (sketch 4 [(3, 9)]) ∧
    (holding twins).h[3]? = some (sketch 4 [(3, 9)]) ∧ (sketch 4 [(3, 5)]).valid = true ∧ (sketch 4 [(3, 9)]).valid = true ∧
    (sketch 4 [(3, 5)]).b = (sketch 4 [(3, 9)]).b := by
  refine ⟨holding_inv _ fun k hk => ?_, by decide⟩
  fin_cases hk <;> exact sketch_inv 4 _ (by decide) (by decide) (by decide) (by decide)

theorem witness_MergeIsAssociative : Memory.wf [(3, 5)] ∧ Memory.wf [(0, 128), (3, 9)] ∧ Memory.wf [(15, 255)] := by decide

/-- The faults that spoil a unit, one that spoils none, and an illegal word. -/
theorem witness_FaultsArePrecise :
    (∃ t, step { writing 2 0xC0 with inputs := [.command 0x11000000 0] } = .next t ∧ t.resp = some ⟨2, 0⟩) ∧
    (∃ t, step { reading [] with inputs := [.command 0x21010000 0] } = .next t ∧ t.resp = some ⟨4, 0⟩) ∧
    (∃ t, step (pending (.command 0x40040300 0)) = .next t ∧ t.resp = some ⟨6, 0⟩) ∧
    (∃ t, step (pending (.command 0x22000000 0)) = .next t ∧ t.resp = some ⟨1, 0⟩) :=
  ⟨⟨_, rfl, rfl⟩, ⟨_, rfl, rfl⟩, ⟨_, rfl, rfl⟩, _, rfl, rfl⟩

theorem witness_FaultTableIsExact :
    (∃ t, step (pending (.command 0x22000000 0)) = .next t ∧ t.resp = some ⟨FaultCode.illegal.code, 0⟩) ∧
    (∃ t, step (pending (.command 0x11080000 0x55)) = .next t ∧ t.resp = some ⟨FaultCode.state.code, 0⟩) ∧
    FaultCode.varint ∈ faultsOf .rv32 := ⟨⟨_, rfl, rfl⟩, ⟨_, rfl, rfl⟩, by decide⟩

/-- A legal word of each format and an illegal one, for the part of each instruction's statement about the words that issue it. -/
theorem witness_IssuedAs :
    ((pending (.command 0x00000000 0)).inputs = .command 0x00000000 0 :: [] ∧
      (0x00000000 : CmdWord).extractLsb' 24 8 = 0x00 ∧ unusedZero .z 0 0 0 ∧ ¬ unusedZero .z 1 0 0) ∧
    ((0x21410000 : CmdWord).extractLsb' 24 8 = 0x21 ∧ unusedZero .a 0x41 0 0 ∧ ¬ unusedZero .a 0x40 1 0) ∧
    ((0x11080400 : CmdWord).extractLsb' 24 8 = 0x11 ∧ unusedZero .ab 8 4 0 ∧ ¬ unusedZero .ab 8 4 1) ∧
    ((0x42020011 : CmdWord).extractLsb' 24 8 = 0x42 ∧ unusedZero .ac 2 0 17 ∧ ¬ unusedZero .ac 2 1 17) := by
  refine ⟨⟨rfl, ?_⟩, ?_⟩ <;> (unfold unusedZero; decide)

theorem witness_FsrIsSticky : (∃ t, exec .srst State.reset = .next t) ∧
    (∃ t, exec (.wbits 0 0 0) (writing 2 0xC0) = .next t) ∧ Instr.wbits 0 0 0 ≠ .srst := ⟨⟨_, rfl⟩, ⟨_, rfl⟩, by decide⟩

/-- The clauses of the mismatch flag: SRST, a mismatch, and a merge that leaves it. -/
theorem witness_MismatchFlagIsSticky : (∃ t, exec .srst State.reset = .next t) ∧
    (∃ t, exec (.hagg 0 2) (holding slots) = .next t ∧ t.mm = true) ∧
    (∃ t, exec (.hagg 0 1) (holding slots) = .next t ∧ t.mm = false) := ⟨⟨_, rfl⟩, ⟨_, rfl, rfl⟩, _, rfl, rfl⟩

theorem witness_EveryWordIsAnswered : (pending (.command 0xFFFFFFFF 0)).inputs = .command 0xFFFFFFFF 0 :: [] := rfl

/-- A primitive belongs to no unit that holds state, so it meets the hypotheses of all three clauses. -/
theorem witness_UnitsChangeOnlyTheirState : (∃ t, exec (.popcnt 3) State.reset = .next t) ∧ Instr.popcnt 3 ≠ .srst ∧
    unitOf (Instr.popcnt 3).op ≠ .writer ∧ unitOf (Instr.popcnt 3).op ≠ .reader ∧ unitOf (Instr.popcnt 3).op ≠ .sketch :=
  ⟨⟨_, rfl⟩, by decide⟩

/-- Two states that share one unit and differ in another, for each unit. -/
theorem witness_UnitsObserveOnlyTheirState :
    ((∃ t, exec (.wbit true) (writing 0 0) = .next t) ∧ unitOf (Instr.wbit true).op = .writer ∧
      ({ writing 0 0 with h := slots } : State).w = (writing 0 0).w) ∧
    ((∃ t, exec .ropen (reading [1]) = .next t) ∧ unitOf Instr.ropen.op = .reader ∧
      ({ reading [1] with h := slots } : State).r = (reading [1]).r ∧
      ({ reading [1] with h := slots } : State).offer = (reading [1]).offer) ∧
    ((∃ t, exec (.hget 0 3) (holding slots) = .next t) ∧ unitOf (Instr.hget 0 3).op = .sketch ∧
      ({ holding slots with w := openWriter } : State).h = (holding slots).h) :=
  ⟨⟨⟨_, rfl⟩, rfl, rfl⟩, ⟨⟨_, rfl⟩, rfl, rfl, rfl⟩, ⟨_, rfl⟩, rfl, rfl⟩

theorem witness_PacketsAreFixed : (∃ t, exec .walign (writing 1 0x80) = .next t) ∧ Instr.walign ≠ .wopen ∧
    Instr.walign ≠ .srst ∧ Instr.walign ≠ .ropen ∧ (∃ t, exec .wopen (writing 1 0x80) = .next t) ∧
    ∃ t, exec .srst (writing 1 0x80) = .next t := ⟨⟨_, rfl⟩, by decide, by decide, by decide, ⟨_, rfl⟩, _, rfl⟩

theorem witness_SlotsAreDisjoint : (∃ t, exec (.hagg 0 1) (holding slots) = .next t) ∧ Instr.hagg 0 1 ≠ .srst ∧
    targetSlot (.hagg 0 1) ≠ some 1 := ⟨⟨_, rfl⟩, by decide, by decide⟩

theorem witness_SlotCountIsFixed : ∃ t, step (pending .reset) = .next t := ⟨_, rfl⟩

/-- A state that is not the reset state and meets the invariant, and a step from it. -/
theorem witness_StepKeepsTheInvariant : ({ holding twins with inputs := [.command 0x44000100 0] } : State).Inv ∧
    ∃ t, step { holding twins with inputs := [.command 0x44000100 0] } = .next t :=
  ⟨witness_merge_laws.1.setInputs _, _, rfl⟩

end Sys2Proof.Tests
end

/-! SUPPORT. The machine as a whole: what one step can do, what a command's effect can touch, and that both keep the invariant
(spec rules R25, R27, R29, R31, R33, R34, R38, R39, R51, R52, R140). -/

namespace Sys2Proof.Machine

/-! ## What a step can do -/

/-- One move of the host or the environment: nothing, a decoded command, an illegal word, a presented packet, the reset signal. -/
theorem step_cases {s t : State} (h : step s = .next t) :
    t = s ∨
    (∃ rest i, exec i (s.setInputs rest) = .next t) ∨
    (∃ rest, t = takeFault .system .illegal (s.setInputs rest)) ∨
    (∃ rest p, p.length < Config.packetBound ∧ t = (s.setInputs rest).setOffer p) ∨
    (∃ rest, t = (resetBlock (s.setInputs rest)).setResp none) := by
  unfold step at h
  split at h
  next => exact .inl (Host.Outcome.next.inj h).symm
  next cmd data rest _ =>
    unfold runCommand at h
    split at h
    next i _ => exact .inr (.inl ⟨rest, i, h⟩)
    next => exact .inr (.inr (.inl ⟨rest, (raise_eq_next _ _ _ _).mp h⟩))
  next p rest _ =>
    unfold presentPacket at h
    split at h
    next hp => exact .inr (.inr (.inr (.inl ⟨rest, p, hp, (Host.Outcome.next.inj h).symm⟩)))
    next => cases h
  next rest _ => exact .inr (.inr (.inr (.inr ⟨rest, (Host.Outcome.next.inj h).symm⟩)))

/-! ## The invariant (O57) -/

theorem State.Inv.setOffer {s : State} (h : s.Inv) {p : List Byte} (hp : p.length < Config.packetBound) :
    (s.setOffer p).Inv := { h with offer := hp }

theorem State.Inv.clearResp {s : State} (h : s.Inv) : (s.setResp none).Inv := { h with resp := fun _ hp => by cases hp }

theorem Writer.Inv.padded {w : Writer} (h : w.Inv) : w.padded := h.2.1

/-- Bits put into an open writer keep the machine's invariant. -/
theorem State.Inv.appended {s : State} (h : s.Inv) (ho : s.w.wst = .opened) {w : Writer} {l : List Bool}
    (ha : Appended s.w w l) : (s.setW w).Inv := h.setW (h.writer.appended ho ha)

/-- Moving the cursor of an open reader inside its packet keeps the machine's invariant. -/
theorem State.Inv.moved {s : State} (h : s.Inv) (ho : s.r.rst = .opened) {r : Reader} (hr : r.rst = s.r.rst)
    (hc : r.Cursor) : (s.setR r).Inv := h.setR (hc.inv (by simp [hr, ho]))

/-- A varint that is read leaves the cursor standing right, in the same life-cycle state. -/
theorem getVarint_cursor {width groups : Nat} {r r' : Reader} {v : BitVec width} (h : r.Cursor)
    (hg : getVarint width groups r = .ok (v, r')) : r'.rst = r.rst ∧ r'.Cursor := by
  rcases getGroups_cases width groups groups 0 0 r h with he | he | ⟨v2, r2, he, _, hs, hc⟩
  · cases he.symm.trans hg
  · cases he.symm.trans hg
  · cases he.symm.trans hg
    exact ⟨hs, hc⟩

/-- A command's effect keeps the invariant. -/
theorem Effect.inv {i : Instr} {s u : State} (he : Effect i s u) (h : s.Inv) : u.Inv := by
  cases i with
  | nop | rdsr | popcnt | clz | ctz | nlpo2 | ispow2 | bswap32 | bswap64 | hget =>
    obtain rfl : u = s := he
    exact h
  | srst =>
    obtain rfl : u = resetBlock s := he
    exact h.resetBlock
  | wopen =>
    obtain rfl : u = s.setW openWriter := he
    exact h.setW openWriter_inv
  | wbits =>
    obtain ⟨ho, _, _, rfl⟩ := he
    exact h.appended ho (appended_put _ _ _)
  | wbit =>
    obtain ⟨ho, rfl⟩ := he
    exact h.appended ho (appended_putBit _ _)
  | wv64 | wv32 =>
    obtain ⟨ho, rfl⟩ := he
    exact h.appended ho (appended_putBytes _ _)
  | walign =>
    obtain ⟨ho, rfl⟩ := he
    exact h.appended ho (appended_alignWriter _ h.writer.padded)
  | wflush =>
    obtain ⟨ho, rfl⟩ := he
    exact h.setW (h.writer.flushed ho)
  | ropen =>
    obtain rfl : u = s.setR (openReader s.offer) := he
    exact h.setR (openReader_inv _ h.offer)
  | rbits n =>
    obtain ⟨ho, _, _, ha, v, r, hg, rfl⟩ := he
    obtain ⟨r', hg', _, _, hs, hc⟩ := get_spec h.reader.cursor n ha
    cases hg'.symm.trans hg
    exact h.moved ho hs hc
  | rv64 | rv32 =>
    obtain ⟨ho, v, r, hg, rfl⟩ := he
    obtain ⟨hs, hc⟩ := getVarint_cursor h.reader.cursor hg
    exact h.moved ho hs hc
  | ralign =>
    obtain ⟨ho, rfl⟩ := he
    obtain ⟨_, _, hs, hc⟩ := alignReader_spec h.reader.cursor
    exact h.moved ho hs hc
  | hnew n b =>
    obtain ⟨_, h4, h14, rfl⟩ := he
    exact h.setSlot n (Sketch.new_inv b h4 h14)
  | hset n v idx =>
    obtain ⟨k, hk, hv, hi, rfl⟩ := he
    exact h.setSlot n ((h.slot hk).write hv _ hi v)
  | hrst n =>
    obtain ⟨k, hk, hv, rfl⟩ := he
    exact h.setSlot n ((h.slot hk).withReg hv [] Memory.wf_nil (fun c hc => absurd hc (by simp)))
  | hagg d n =>
    obtain ⟨kd, kn, hd, hn, hv, _, ⟨_, rfl⟩ | ⟨hb, rfl⟩⟩ := he
    · exact h.setMm true
    · exact h.setSlot d ((h.slot hd).merge (h.slot hn) hv hb)

/-- Every command keeps the invariant, whether it faults or not. -/
theorem exec_inv {i : Instr} {s t : State} (h : s.Inv) (he : exec i s = .next t) : t.Inv := by
  rcases exec_cases he with ⟨c, _, rfl, ho⟩ | ⟨rd, u, rfl, hu⟩
  · exact h.takeFault _ c ho
  · exact (hu.inv h).respond rd

/-- Settles O57: each of the five things a step can do keeps the invariant. -/
theorem stepKeepsTheInvariant : Obligations.StepKeepsTheInvariant := by
  intro s t h hs
  rcases step_cases hs with rfl | ⟨rest, i, he⟩ | ⟨rest, rfl⟩ | ⟨rest, p, hp, rfl⟩ | ⟨rest, rfl⟩
  · exact h
  · exact exec_inv (h.setInputs rest) he
  · exact (h.setInputs rest).takeFault .system .illegal (fun hc => absurd hc (by simp))
  · exact (h.setInputs rest).setOffer hp
  · exact (h.setInputs rest).resetBlock.clearResp

/-! ## What a command's effect can touch -/

/-- A merge of valid sketches of different `B` (R134): what sets `HSR.MM`. -/
def Mismatch (i : Instr) (s : State) : Prop :=
  ∃ d n kd kn, i = .hagg d n ∧ s.h[d]? = some kd ∧ s.h[n]? = some kn ∧ kd.valid = true ∧ kn.valid = true ∧ kd.b ≠ kn.b

/-- The one update a command other than SRST makes when it does not fault: of nothing, of its unit, or of the mismatch flag. -/
inductive UnitUpdate (i : Instr) (s : State) : State → Prop where
  | none : UnitUpdate i s s
  | writer (hu : unitOf i.op = .writer) (w : Writer) : UnitUpdate i s (s.setW w)
  | reader (hu : unitOf i.op = .reader) (r : Reader) : UnitUpdate i s (s.setR r)
  | slot (hu : unitOf i.op = .sketch) (n : Nat) (k : Sketch) : UnitUpdate i s (s.setSlot n k)
  | mismatch (hu : unitOf i.op = .sketch) (hm : Mismatch i s) : UnitUpdate i s (s.setMm true)

/-- The effect of a command other than SRST is one update of its unit (R39). -/
theorem Effect.unitUpdate {i : Instr} {s u : State} (he : Effect i s u) (hi : i ≠ .srst) : UnitUpdate i s u := by
  cases i with
  | srst => exact absurd rfl hi
  | nop | rdsr | popcnt | clz | ctz | nlpo2 | ispow2 | bswap32 | bswap64 | hget =>
    obtain rfl : u = s := he
    exact .none
  | wopen =>
    obtain rfl : u = s.setW openWriter := he
    exact .writer rfl _
  | wbits =>
    obtain ⟨_, _, _, rfl⟩ := he
    exact .writer rfl _
  | wbit | wv64 | wv32 | walign | wflush =>
    obtain ⟨_, rfl⟩ := he
    exact .writer rfl _
  | ropen =>
    obtain rfl : u = s.setR (openReader s.offer) := he
    exact .reader rfl _
  | rbits =>
    obtain ⟨_, _, _, _, _, _, _, rfl⟩ := he
    exact .reader rfl _
  | rv64 | rv32 =>
    obtain ⟨_, _, _, _, rfl⟩ := he
    exact .reader rfl _
  | ralign =>
    obtain ⟨_, rfl⟩ := he
    exact .reader rfl _
  | hnew =>
    obtain ⟨_, _, _, rfl⟩ := he
    exact .slot rfl _ _
  | hset =>
    obtain ⟨_, _, _, _, rfl⟩ := he
    exact .slot rfl _ _
  | hrst =>
    obtain ⟨_, _, _, rfl⟩ := he
    exact .slot rfl _ _
  | hagg d n =>
    obtain ⟨kd, kn, hd, hn, hvd, hvn, ⟨hb, rfl⟩ | ⟨_, rfl⟩⟩ := he
    · exact .mismatch rfl ⟨d, n, kd, kn, rfl, hd, hn, hvd, hvn, hb⟩
    · exact .slot rfl _ _

/-- A command other than SRST takes its fault, or makes one update of its unit and responds. -/
theorem exec_unitUpdate {i : Instr} {s t : State} (h : exec i s = .next t) (hi : i ≠ .srst) :
    (∃ c, t = takeFault (unitOf i.op) c s) ∨ ∃ rd u, t = u.setResp (some ⟨0, rd⟩) ∧ UnitUpdate i s u := by
  rcases exec_cases h with ⟨c, _, rfl, _⟩ | ⟨rd, u, rfl, he⟩
  · exact .inl ⟨c, rfl⟩
  · exact .inr ⟨rd, u, rfl, he.unitUpdate hi⟩

/-- SRST resets the block and responds (R92). -/
theorem exec_srst_eq_next {s t : State} : exec .srst s = .next t ↔ t = (resetBlock s).setResp (some ⟨0, 0⟩) :=
  respond_eq_next (resetBlock s) 0 t

theorem FaultCode.code_ne_zero (c : FaultCode) : c.code ≠ 0 := by cases c <;> decide

/-! ## Flags (O48, O49) -/

theorem UnitUpdate.fsr {i : Instr} {s u : State} (h : UnitUpdate i s u) : u.fsr = s.fsr := by
  cases h <;> rfl

/-- Settles O48: a fault sets the bit of its own code, and the update of a unit leaves `FSR`. -/
theorem fsrIsSticky : Obligations.FsrIsSticky := by
  intro i s t h
  constructor
  · rintro rfl
    rw [exec_srst_eq_next.mp h]
    rfl
  · intro hi
    rcases exec_unitUpdate h hi with ⟨c, rfl⟩ | ⟨rd, u, rfl, hu⟩
    · exact ⟨_, rfl, (if_neg c.code_ne_zero).symm⟩
    · exact ⟨_, rfl, hu.fsr⟩

/-- A merge of valid sketches of different `B` responds 1 and sets the flag (R134). -/
theorem Mismatch.exec_eq {i : Instr} {s : State} (h : Mismatch i s) : exec i s = respond 1 (s.setMm true) := by
  obtain ⟨d, n, kd, kn, rfl, hd, hn, hvd, hvn, hb⟩ := h
  simp [exec, execHagg, hd, hn, hvd, hvn, hb]

/-- The flag changes in a mismatched merge only. -/
theorem UnitUpdate.mm {i : Instr} {s u : State} (h : UnitUpdate i s u) : u.mm = s.mm ∨ Mismatch i s := by
  cases h with
  | none | writer | reader | slot => exact .inl rfl
  | mismatch _ hm => exact .inr hm

/-- Settles O49: the one update that writes the flag is a mismatch, and a mismatch always writes it. -/
theorem mismatchFlagIsSticky : Obligations.MismatchFlagIsSticky := by
  intro i s t h
  constructor
  · rintro rfl
    rw [exec_srst_eq_next.mp h]
    rfl
  · intro hi
    show t.mm = true ↔ s.mm = true ∨ Mismatch i s
    by_cases hm : Mismatch i s
    · obtain rfl := (respond_eq_next _ _ _).mp (hm.exec_eq.symm.trans h)
      simp [hm]
    · have hmm : t.mm = s.mm := by
        rcases exec_unitUpdate h hi with ⟨c, rfl⟩ | ⟨rd, u, rfl, hu⟩
        · rfl
        · exact hu.mm.resolve_right hm
      simp [hm, hmm]

/-! ## The frame of a command (O51) -/

/-- A fault of another unit leaves the writer. -/
theorem spoilWriter_of_ne {u : UnitClass} (hu : u ≠ .writer) (c : FaultCode) (w : Writer) : spoilWriter u c w = w :=
  if_neg fun h => hu h.1

/-- A fault of another unit leaves the reader. -/
theorem spoilReader_of_ne {u : UnitClass} (hu : u ≠ .reader) (c : FaultCode) (r : Reader) : spoilReader u c r = r :=
  if_neg fun h => hu h.1

/-- Settles O51: a fault spoils the unit of its command only, and an effect updates that unit only. -/
theorem unitsChangeOnlyTheirState : Obligations.UnitsChangeOnlyTheirState := by
  intro i s t h hi
  rcases exec_unitUpdate h hi with ⟨c, rfl⟩ | ⟨rd, u, rfl, hu⟩
  · exact ⟨fun hn => spoilWriter_of_ne hn c s.w, fun hn => spoilReader_of_ne hn c s.r, fun _ => ⟨rfl, rfl⟩, rfl, rfl⟩
  · cases hu with
    | none => simp
    | writer hw | reader hw | slot hw | mismatch hw => simp [hw]

/-! ## The number of slots (O55) -/

theorem UnitUpdate.h_length {i : Instr} {s u : State} (h : UnitUpdate i s u) : u.h.length = s.h.length := by
  cases h with
  | none | writer | reader | mismatch => rfl
  | slot => simp

theorem resetBlock_h_length (s : State) : (resetBlock s).h.length = s.h.length := by simp [State.nsketch]

theorem exec_h_length {i : Instr} {s t : State} (h : exec i s = .next t) : t.h.length = s.h.length := by
  by_cases hi : i = .srst
  · subst hi
    rw [exec_srst_eq_next.mp h]
    exact resetBlock_h_length s
  · rcases exec_unitUpdate h hi with ⟨c, rfl⟩ | ⟨rd, u, rfl, hu⟩
    · rfl
    · exact hu.h_length

/-- Settles O55: a slot is replaced in place, and reset makes as many slots as there were. -/
theorem slotCountIsFixed : Obligations.SlotCountIsFixed := by
  intro s t h
  rcases step_cases h with rfl | ⟨rest, i, he⟩ | ⟨rest, rfl⟩ | ⟨rest, p, _, rfl⟩ | ⟨rest, rfl⟩
  · rfl
  · exact exec_h_length (s := s.setInputs rest) he
  · rfl
  · rfl
  · exact resetBlock_h_length (s.setInputs rest)

/-! ## Emitted bytes and the source packet (O53) -/

/-- Emitted bytes stay, and new ones follow them. -/
theorem Appended.snk_append {w w' : Writer} {l : List Bool} (h : Appended w w' l) : ∃ m, w'.snk = w.snk ++ m := by
  obtain ⟨m, hm, _⟩ := h.emitted
  exact ⟨m, hm⟩

theorem alignWriter_snk_append (w : Writer) : ∃ m, (alignWriter w).snk = w.snk ++ m := by
  rcases alignWriter_cases w with ⟨_, h⟩ | ⟨_, h⟩
  · exact ⟨[], by simp [h]⟩
  · exact ⟨[w.wcur], by rw [h]; rfl⟩

theorem spoilWriter_snk (u : UnitClass) (c : FaultCode) (w : Writer) : (spoilWriter u c w).snk = w.snk := by
  rcases spoilWriter_cases u c w with h | ⟨_, _, h⟩ <;> rw [h]

theorem spoilReader_src (u : UnitClass) (c : FaultCode) (r : Reader) : (spoilReader u c r).src = r.src := by
  rcases spoilReader_cases u c r with h | ⟨_, _, h⟩ <;> rw [h]

/-- An effect other than opening a writer and SRST appends to the sink packet. -/
theorem Effect.snk_append {i : Instr} {s u : State} (he : Effect i s u) (hw : i ≠ .wopen) (hi : i ≠ .srst) :
    ∃ l, u.w.snk = s.w.snk ++ l := by
  cases i with
  | wopen => exact absurd rfl hw
  | wbits =>
    obtain ⟨_, _, _, rfl⟩ := he
    exact (appended_put _ _ _).snk_append
  | wbit =>
    obtain ⟨_, rfl⟩ := he
    exact (appended_putBit _ _).snk_append
  | wv64 | wv32 =>
    obtain ⟨_, rfl⟩ := he
    exact (appended_putBytes _ _).snk_append
  | walign | wflush =>
    obtain ⟨_, rfl⟩ := he
    exact alignWriter_snk_append s.w
  | _ =>
    have hu := he.unitUpdate hi
    cases hu with
    | writer hu => cases hu
    | none | reader | slot | mismatch => exact ⟨[], by simp⟩

theorem getBit_src {r r' : Reader} {b : Bool} (h : getBit r = some (b, r')) : r'.src = r.src := by
  unfold getBit at h
  split at h
  next => cases h
  next =>
    obtain ⟨_, rfl⟩ := Prod.mk.inj (Option.some.inj h)
    split <;> rfl

theorem getInto_src : ∀ (n : Nat) (v : Word) (r : Reader) {v' : Word} {r' : Reader},
    getInto n v r = some (v', r') → r'.src = r.src
  | 0, _, _, _, _, h => by
    cases h
    rfl
  | k + 1, v, r, _, _, h => by
    rw [getInto] at h
    split at h
    next => cases h
    next hb => exact (getInto_src k _ _ h).trans (getBit_src hb)

theorem getGroups_src (width groups : Nat) : ∀ (k i : Nat) (acc : BitVec width) (r : Reader) {v : BitVec width} {r' : Reader},
    getGroups width groups k i acc r = .ok (v, r') → r'.src = r.src
  | 0, _, _, _, _, _, h => by cases h
  | k + 1, i, acc, r, _, _, h => by
    rw [getGroups] at h
    split at h
    next => cases h
    next =>
      split at h
      next => cases h
      next hg =>
        have hs := getInto_src 8 0 r hg
        simp only at h
        split at h
        next => cases h
        next =>
          split at h
          next => exact (getGroups_src width groups k _ _ _ h).trans hs
          next =>
            cases h
            exact hs

theorem alignReader_src (r : Reader) : (alignReader r).src = r.src := by
  rcases alignReader_cases r with ⟨_, h⟩ | ⟨_, h⟩ <;> rw [h]
  rfl

/-- An effect other than opening a reader and SRST keeps the source packet. -/
theorem Effect.src_eq {i : Instr} {s u : State} (he : Effect i s u) (hr : i ≠ .ropen) (hi : i ≠ .srst) :
    u.r.src = s.r.src := by
  cases i with
  | ropen => exact absurd rfl hr
  | rbits =>
    obtain ⟨_, _, _, _, _, _, hg, rfl⟩ := he
    exact getInto_src _ _ _ hg
  | rv64 | rv32 =>
    obtain ⟨_, _, _, hg, rfl⟩ := he
    exact getGroups_src _ _ _ _ _ _ hg
  | ralign =>
    obtain ⟨_, rfl⟩ := he
    exact alignReader_src s.r
  | _ =>
    have hu := he.unitUpdate hi
    cases hu with
    | reader hu => cases hu
    | none | writer | slot | mismatch => rfl

/-- The commands that empty the sink packet (R92, R107). -/
theorem exec_snk_nil {i : Instr} {s t : State} (h : exec i s = .next t) (hi : i = .wopen ∨ i = .srst) : t.w.snk = [] := by
  rcases hi with rfl | rfl
  · rw [(respond_eq_next (s.setW openWriter) 0 t).mp h]
    rfl
  · rw [exec_srst_eq_next.mp h]
    rfl

/-- Settles O53: the writer's bit path only appends, the reader's only moves the cursor, and a fault touches neither packet. -/
theorem packetsAreFixed : Obligations.PacketsAreFixed := by
  intro i s t h
  refine ⟨fun hw hi => ?_, exec_snk_nil h, fun hr hi => ?_⟩
  · rcases exec_cases h with ⟨c, _, rfl, _⟩ | ⟨rd, u, rfl, he⟩
    · exact ⟨[], by simp [spoilWriter_snk]⟩
    · exact he.snk_append hw hi
  · rcases exec_cases h with ⟨c, _, rfl, _⟩ | ⟨rd, u, rfl, he⟩
    · exact spoilReader_src _ c s.r
    · exact he.src_eq hr hi

/-! ## What a command observes (O52) -/

/-- Two states with the same state of a unit. -/
structure AgreeOn (u : UnitClass) (s s' : State) : Prop where
  w : u = .writer → s'.w = s.w
  r : u = .reader → s'.r = s.r
  h : u = .sketch → s'.h = s.h

/-- Two results that are both next states, with one response and the same state of a unit. -/
def SameAnswer (u : UnitClass) (a a' : Result) : Prop :=
  ∃ t t', a = .next t ∧ a' = .next t' ∧ t'.resp = t.resp ∧ AgreeOn u t t'

theorem AgreeOn.respond {u : UnitClass} {s s' : State} (h : AgreeOn u s s') (rd : Word) :
    SameAnswer u (respond rd s) (respond rd s') :=
  ⟨_, _, rfl, rfl, rfl, h.w, h.r, h.h⟩

theorem AgreeOn.raise {u : UnitClass} {s s' : State} (h : AgreeOn u s s') (c : FaultCode) :
    SameAnswer u (raise u c s) (raise u c s') :=
  ⟨_, _, rfl, rfl, rfl, fun hu => by simp [h.w hu], fun hu => by simp [h.r hu], h.h⟩

/-- The same test in both states. -/
theorem SameAnswer.ite {u : UnitClass} {p : Prop} [Decidable p] {a a' b b' : Result} (ha : SameAnswer u a a')
    (hb : SameAnswer u b b') : SameAnswer u (if p then a else b) (if p then a' else b') := by
  split <;> assumption

theorem agreeOn_primitive (s s' : State) : AgreeOn .primitive s s' :=
  ⟨fun h => (by cases h), fun h => (by cases h), fun h => (by cases h)⟩

theorem agreeOn_writer {s s' : State} (h : s'.w = s.w) : AgreeOn .writer s s' :=
  ⟨fun _ => h, fun h => (by cases h), fun h => (by cases h)⟩

theorem agreeOn_reader {s s' : State} (h : s'.r = s.r) : AgreeOn .reader s s' :=
  ⟨fun h => (by cases h), fun _ => h, fun h => (by cases h)⟩

theorem agreeOn_sketch {s s' : State} (h : s'.h = s.h) : AgreeOn .sketch s s' :=
  ⟨fun h => (by cases h), fun h => (by cases h), fun _ => h⟩

theorem agreeOn_setW (s s' : State) (w : Writer) : AgreeOn .writer (s.setW w) (s'.setW w) := agreeOn_writer rfl

theorem agreeOn_setR (s s' : State) (r : Reader) : AgreeOn .reader (s.setR r) (s'.setR r) := agreeOn_reader rfl

theorem AgreeOn.setMm {u : UnitClass} {s s' : State} (h : AgreeOn u s s') (v : Bool) : AgreeOn u (s.setMm v) (s'.setMm v) :=
  ⟨h.w, h.r, h.h⟩

theorem AgreeOn.setSlot {u : UnitClass} {s s' : State} (h : AgreeOn u s s') (n : Nat) (k : Sketch) :
    AgreeOn u (s.setSlot n k) (s'.setSlot n k) :=
  ⟨h.w, h.r, fun hu => by simp [h.h hu]⟩

/-- Primitives read no state. -/
theorem exec_primitive_sameAnswer {i : Instr} (hi : unitOf i.op = .primitive) (s s' : State) :
    SameAnswer .primitive (exec i s) (exec i s') := by
  have h := agreeOn_primitive s s'
  cases i with
  | popcnt | clz | ctz | ispow2 | bswap32 | bswap64 => exact h.respond _
  | nlpo2 => exact .ite (h.respond _) (h.raise _)
  | _ => cases hi

/-- Writer commands read the writer only. -/
theorem exec_writer_sameAnswer {i : Instr} (hi : unitOf i.op = .writer) {s s' : State} (hw : s'.w = s.w) :
    SameAnswer .writer (exec i s) (exec i s') := by
  have h := agreeOn_writer hw
  cases i with
  | wopen => exact (agreeOn_setW s s' _).respond 0
  | wbits =>
    simp only [exec, execWbits, hw]
    exact .ite (h.raise _) (.ite (h.raise _) ((agreeOn_setW s s' _).respond 0))
  | wbit | wv64 | wv32 | walign | wflush =>
    simp only [exec, execWbit, execWv64, execWv32, execWalign, execWflush, hw]
    exact .ite (h.raise _) ((agreeOn_setW s s' _).respond 0)
  | _ => cases hi

/-- Reader commands read the reader, and ROPEN the presented packet. -/
theorem exec_reader_sameAnswer {i : Instr} (hi : unitOf i.op = .reader) {s s' : State} (hr : s'.r = s.r)
    (ho : s'.offer = s.offer) : SameAnswer .reader (exec i s) (exec i s') := by
  have h := agreeOn_reader hr
  cases i with
  | ropen =>
    simp only [exec, execRopen, ho]
    exact (agreeOn_setR s s' _).respond _
  | rbits n =>
    simp only [exec, execRbits, hr]
    refine .ite (h.raise _) (.ite (h.raise _) (.ite (h.raise _) ?_))
    split
    · exact h.raise _
    · exact (agreeOn_setR s s' _).respond _
  | rv64 | rv32 =>
    simp only [exec, execRv64, execRv32, hr]
    refine .ite (h.raise _) ?_
    split
    · exact h.raise _
    · exact (agreeOn_setR s s' _).respond _
  | ralign =>
    simp only [exec, execRalign, hr]
    exact .ite (h.raise _) ((agreeOn_setR s s' _).respond 0)
  | _ => cases hi

/-- The slot checks give one answer in two states with the same slots, if the command's own part does. -/
theorem withSketch_sameAnswer {s s' : State} (hh : s'.h = s.h) (n : Nat) {body body' : Sketch → Result}
    (hb : ∀ k, SameAnswer .sketch (body k) (body' k)) : SameAnswer .sketch (withSketch n s body) (withSketch n s' body') := by
  have h := agreeOn_sketch hh
  unfold withSketch
  rw [hh]
  split
  · exact h.raise _
  · exact .ite (hb _) (h.raise _)

/-- Sketch commands read the slots only. -/
theorem exec_sketch_sameAnswer {i : Instr} (hi : unitOf i.op = .sketch) {s s' : State} (hh : s'.h = s.h) :
    SameAnswer .sketch (exec i s) (exec i s') := by
  have h := agreeOn_sketch hh
  cases i with
  | hnew n b =>
    simp only [exec, execHnew, State.nsketch, hh]
    exact .ite (h.raise _) (.ite (h.raise _) ((h.setSlot n _).respond 0))
  | hget n idx => exact withSketch_sameAnswer hh n fun k => .ite (h.raise _) (h.respond _)
  | hset n v idx => exact withSketch_sameAnswer hh n fun k => .ite (h.raise _) ((h.setSlot n _).respond 0)
  | hrst n => exact withSketch_sameAnswer hh n fun k => (h.setSlot n _).respond 0
  | hagg d n =>
    simp only [exec, execHagg, hh]
    split
    · exact h.raise _
    · exact h.raise _
    · exact .ite (h.raise _) (.ite (h.raise _) (.ite ((h.setMm true).respond 1) ((h.setSlot d _).respond 0)))
  | _ => cases hi

/-- Settles O52: the tests and the values of a command are those of its own unit, so two states that agree on it give one answer. -/
theorem unitsObserveOnlyTheirState : Obligations.UnitsObserveOnlyTheirState := by
  intro i s s' t h hsys hw hr hh
  have hsame : SameAnswer (unitOf i.op) (exec i s) (exec i s') := by
    cases hu : unitOf i.op with
    | system => exact absurd hu hsys
    | writer => exact exec_writer_sameAnswer hu (hw hu)
    | reader =>
      obtain ⟨hreader, hoffer⟩ := hr hu
      exact exec_reader_sameAnswer hu hreader hoffer
    | primitive => exact exec_primitive_sameAnswer hu s s'
    | sketch => exact exec_sketch_sameAnswer hu (hh hu)
  obtain ⟨t₁, t', h₁, h', hresp, hag⟩ := hsame
  obtain rfl : t₁ = t := Host.Outcome.next.inj (h₁.symm.trans h)
  exact ⟨t', h', hresp, hag.w, hag.r, hag.h⟩

end Sys2Proof.Machine

/-! SUPPORT. What the commands and the environment leave in the slots and in the offer (spec rules R52, R53, R134, R171). -/

namespace Sys2Proof.Machine

/-! ## Slots (O54) -/

/-- Only a sketch command writes the slots. -/
theorem UnitUpdate.h_eq {i : Instr} {s u : State} (h : UnitUpdate i s u) (hu : unitOf i.op ≠ .sketch) : u.h = s.h := by
  cases h with
  | none | writer | reader | mismatch => rfl
  | slot hs => exact absurd hs hu

/-- An effect leaves every slot, or replaces the target alone. -/
theorem Effect.h_cases {i : Instr} {s u : State} (he : Effect i s u) (hi : i ≠ .srst) :
    u.h = s.h ∨ ∃ d k, targetSlot i = some d ∧ u.h = s.h.set d k := by
  cases i with
  | hnew n b =>
    obtain ⟨_, _, _, rfl⟩ := he
    exact .inr ⟨n, _, rfl, rfl⟩
  | hset n v idx =>
    obtain ⟨k, _, _, _, rfl⟩ := he
    exact .inr ⟨n, _, rfl, rfl⟩
  | hrst n =>
    obtain ⟨k, _, _, rfl⟩ := he
    exact .inr ⟨n, _, rfl, rfl⟩
  | hagg d n =>
    obtain ⟨kd, kn, _, _, _, _, ⟨_, rfl⟩ | ⟨_, rfl⟩⟩ := he
    · exact .inl rfl
    · exact .inr ⟨d, _, rfl, rfl⟩
  | hget =>
    obtain rfl : u = s := he
    exact .inl rfl
  | _ => exact .inl ((he.unitUpdate hi).h_eq nofun)

/-- Settles O54: a fault writes no slot, and an effect replaces the slot of the target only. -/
theorem slotsAreDisjoint : Obligations.SlotsAreDisjoint := by
  intro i s t n h hi hn
  rcases exec_cases h with ⟨c, _, rfl, _⟩ | ⟨rd, u, rfl, he⟩
  · rfl
  · show u.h[n]? = s.h[n]?
    rcases he.h_cases hi with hh | ⟨d, k, hd, hh⟩
    · rw [hh]
    · have hdn : d ≠ n := fun hdn => hn (hdn ▸ hd)
      rw [hh, List.getElem?_set_ne hdn]

/-! ## The presented packet (O10) -/

/-- A step whose next move is the environment's presents the packet. -/
theorem step_packet {s : State} {p : List Byte} {rest : List Input} (h : s.inputs = .packet p :: rest) :
    step s = presentPacket p (s.setInputs rest) := by
  simp only [step, h]

/-- Settles O10: the bound on a presented packet decides between the offer and the stop. -/
theorem presentedPacketIsOffered : Obligations.PresentedPacketIsOffered := by
  intro s p rest h
  rw [step_packet h]
  exact ⟨fun hp => if_pos hp, fun hp => if_neg (Nat.not_lt.mpr hp)⟩

end Sys2Proof.Machine

/-! SUPPORT. The encoding (spec rules R70 to R77, R80): operand assembly and the encoder undo one another, `OP`, the unused fields and
the bits of `DATA` a command reads fix what a word decodes to, and a command word has one of two outcomes, both of them answers. -/

namespace Sys2Proof

/-! ## Fields and masks -/

/-- A field holds what it can (R73). -/
@[simp] theorem fitsField_toNat (x : BitVec 8) : fitsField x.toNat = true := decide_eq_true x.isLt

/-- A number that fits its field is read back from it (R73). -/
theorem toNat_ofNat_of_fitsField {n : Nat} (h : fitsField n = true) : (BitVec.ofNat 8 n).toNat = n :=
  Nat.mod_eq_of_lt (of_decide_eq_true h)

/-- The low 32 bits of `DATA`, zero-extended, are what the mask of the 32-bit operands leaves (R74). -/
theorem zeroExtend_extractLsb'_32 (x : Word) : (x.extractLsb' 0 32).zeroExtend 64 = x &&& 0xFFFFFFFF := by
  have hlow : (x &&& 0xFFFFFFFF).toNat = x.toNat % 2 ^ 32 :=
    (BitVec.toNat_and x _).trans (Nat.and_two_pow_sub_one_eq_mod x.toNat 32)
  apply BitVec.eq_of_toNat_eq
  simp only [hlow, BitVec.truncate_eq_setWidth, BitVec.toNat_setWidth, BitVec.extractLsb'_toNat, Nat.shiftRight_zero]
  omega

/-- `DATA[0]` as a word is what the mask of WBIT leaves (R74). -/
theorem ite_getLsbD_zero (x : Word) : (if x.getLsbD 0 then 1 else 0 : Word) = x &&& 1 := by
  have hand : x &&& 1 = (BitVec.ofBool (x.getLsbD 0)).setWidth 64 := BitVec.and_one_eq_setWidth_ofBool_getLsbD
  rw [hand]
  cases x.getLsbD 0 <;> rfl

/-- A 32-bit operand is read back from its zero-extension. -/
theorem extractLsb'_32_zeroExtend (x : BitVec 32) : (x.zeroExtend 64).extractLsb' 0 32 = x :=
  BitVec.eq_of_toNat_eq (by simpa using x.isLt)

/-! ## Operand assembly and the operands of the encoder (R73, R74) -/

namespace Op

@[simp] theorem op_build (o : Op) (a b c : BitVec 8) (data : Word) : (o.build a b c data).op = o := by
  cases o <;> rfl

theorem wellFormed_build (o : Op) (a b c : BitVec 8) (data : Word) : (o.build a b c data).wellFormed = true := by
  cases o <;> simp [build, Instr.wellFormed]

/-- The fields come back if those the format does not use are 0 (R71). -/
theorem fields_build (o : Op) {a b c : BitVec 8} (data : Word) (hu : unusedZero o.format a b c) :
    (o.build a b c data).fields = (a, b, c) := by
  cases o with
  | rdsr | rbits | hget | hrst =>
    obtain ⟨rfl, rfl⟩ := hu
    simp [build, Instr.fields]
  | wbits | hnew | hagg =>
    obtain rfl : c = 0 := hu
    simp [build, Instr.fields]
  | hset =>
    obtain rfl : b = 0 := hu
    simp [build, Instr.fields]
  | _ =>
    obtain ⟨rfl, rfl, rfl⟩ := hu
    rfl

/-- `DATA` plays no part in the fields. -/
theorem fields_build_congr (o : Op) (a b c : BitVec 8) (data data' : Word) :
    (o.build a b c data).fields = (o.build a b c data').fields := by
  cases o <;> rfl

/-- `DATA` comes back in the bits the command reads (R74). -/
theorem data_build (o : Op) (a b c : BitVec 8) (data : Word) : (o.build a b c data).data = data &&& o.dataMask := by
  cases o with
  | wbits | wv64 | popcnt | clz | ctz | ispow2 | bswap64 | hget | hset => exact BitVec.and_allOnes.symm
  | wbit => exact ite_getLsbD_zero data
  | wv32 | nlpo2 | bswap32 => exact zeroExtend_extractLsb'_32 data
  | nop | rdsr | srst | wopen | walign | wflush | ropen | rbits | rv64 | rv32 | ralign | hnew | hrst | hagg =>
    exact BitVec.and_zero.symm

end Op

/-- The encoder leaves the fields a format does not use at 0 (R71). -/
theorem Instr.unusedZero_fields (i : Instr) : unusedZero i.op.format i.fields.1 i.fields.2.1 i.fields.2.2 := by
  cases i with
  | rdsr | rbits | hget | hrst => exact ⟨rfl, rfl⟩
  | wbits | hnew | hagg | hset => exact rfl
  | _ => exact ⟨rfl, rfl, rfl⟩

/-- A well-formed command is assembled from its own fields and `DATA` (R73, R74). -/
theorem Instr.build_fields_data {i : Instr} (h : i.wellFormed = true) :
    i.op.build i.fields.1 i.fields.2.1 i.fields.2.2 i.data = i := by
  cases i with
  | wbit b => cases b <;> rfl
  | wv32 x | nlpo2 x | bswap32 x => exact congrArg _ (extractLsb'_32_zeroExtend x)
  | rdsr | rbits | hget | hset | hrst => simp [op, Op.build, fields, data, toNat_ofNat_of_fitsField h]
  | wbits | hnew | hagg =>
    obtain ⟨ha, hb⟩ := Bool.and_eq_true_iff.mp h
    simp [op, Op.build, fields, data, toNat_ofNat_of_fitsField ha, toNat_ofNat_of_fitsField hb]
  | _ => rfl

/-! ## Decoding and encoding (O3 to O7) -/

/-- A word with a command's `OP` and 0 in its unused fields decodes to it (R77). -/
theorem decode_of_unusedZero {o : Op} {cmd : CmdWord} (hc : o.code = opField cmd)
    (hu : unusedZero o.format (aField cmd) (bField cmd) (cField cmd)) (data : Word) :
    decode cmd data = .ok (o.build (aField cmd) (bField cmd) (cField cmd) data) := by
  have hm := (mask_match o cmd).mpr ⟨hc.symm, hu⟩
  simp [decode, (opOf_eq_some _ _).mpr hc, hm]

/-- What a pair that decodes is (R77). -/
theorem eq_build_of_decode {cmd : CmdWord} {data : Word} {i : Instr} (h : decode cmd data = .ok i) :
    ∃ o : Op, o.code = opField cmd ∧ unusedZero o.format (aField cmd) (bField cmd) (cField cmd) ∧
      i = o.build (aField cmd) (bField cmd) (cField cmd) data := by
  rcases decode_cases cmd data with ⟨_, he⟩ | ⟨_, _, _, he⟩ | ⟨o, hc, hu, ho⟩
  · cases he.symm.trans h
  · cases he.symm.trans h
  · exact ⟨o, hc, hu, Except.ok.inj (h.symm.trans ho)⟩

/-- Settles O4: the encoder's word has the command's `OP` and 0 in its unused fields, and its operands come back. -/
theorem decodeOfEncode : Obligations.DecodeOfEncode := by
  intro i h
  have hu : unusedZero i.op.format (aField (encode i).1) (bField (encode i).1) (cField (encode i).1) := by
    simpa [encode] using i.unusedZero_fields
  rw [decode_of_unusedZero (by simp [encode]) hu]
  simpa [encode] using Instr.build_fields_data h

/-- Settles O5: the fields and the bits of `DATA` the command was assembled from are the encoder's. -/
theorem encodeOfDecode : Obligations.EncodeOfDecode := by
  intro cmd data i h
  obtain ⟨o, hc, hu, rfl⟩ := eq_build_of_decode h
  refine ⟨o.wellFormed_build _ _ _ _, ?_, ?_⟩
  · simp [encode, o.fields_build _ hu, hc, cmdWord_of_fields]
  · simp [encode, o.data_build]

/-- 27 of the 256 `OP` values are in use (R76, R77). -/
theorem count_reserved :
    ((List.range 256).filter (fun n => Op.all.all (fun o => o.code != BitVec.ofNat 8 n))).length = 229 := by
  decide +kernel

/-- Settles O6: the three outcomes of the decoder, each with the command of the word's `OP`. -/
theorem decoderIsTotalAndUnambiguous : Obligations.DecoderIsTotalAndUnambiguous := by
  refine ⟨fun cmd data => ?_, Op.code_injective, count_reserved⟩
  rcases decode_cases cmd data with ⟨hn, h⟩ | ⟨o, hc, hu, h⟩ | ⟨o, hc, hu, h⟩
  · exact .inr (.inl ⟨h, hn⟩)
  · exact .inr (.inr ⟨h, o, hc, hu⟩)
  · refine .inl ⟨_, h, ?_⟩
    rw [o.op_build]
    exact ⟨hc, hu⟩

/-- No two well-formed commands have one word. -/
theorem encode_injective {i i' : Instr} (h : i.wellFormed = true) (h' : i'.wellFormed = true) (he : encode i = encode i') :
    i = i' := by
  have hd := decodeOfEncode i h
  rw [he, decodeOfEncode i' h'] at hd
  exact (Except.ok.inj hd).symm

/-- Operand assembly sees only the bits of `DATA` the command reads (R74): no others reach the encoder's word. -/
theorem Op.build_congr (o : Op) (a b c : BitVec 8) {data data' : Word} (h : data &&& o.dataMask = data' &&& o.dataMask) :
    o.build a b c data = o.build a b c data' :=
  encode_injective (o.wellFormed_build _ _ _ _) (o.wellFormed_build _ _ _ _)
    (by simp [encode, o.data_build, h, o.fields_build_congr a b c data data'])

/-- Settles O7: `DATA` takes part in decoding by operand assembly only. -/
theorem ignoredDataBitsChangeNothing : Obligations.IgnoredDataBitsChangeNothing := by
  intro cmd data data' h
  unfold decode
  cases ho : opOf (opField cmd) with
  | none => rfl
  | some o =>
    have hd := h o ((opOf_eq_some _ _).mp ho)
    simp only [o.build_congr _ _ _ hd]

/-- Settles O3: each word of the table is decoded. -/
theorem wordsOfTheSpecDecode : Obligations.WordsOfTheSpecDecode :=
  ⟨rfl, rfl, rfl, rfl, rfl, rfl, rfl, rfl, rfl, rfl, rfl, rfl, rfl, rfl⟩

end Sys2Proof

namespace Sys2Proof.Machine

/-! ## What a command word does (O1, O2) -/

/-- A step whose next move is the host's runs the word. -/
theorem step_command {s : State} {cmd : CmdWord} {data : Word} {rest : List Input}
    (h : s.inputs = .command cmd data :: rest) : step s = runCommand cmd data (s.setInputs rest) := by
  simp only [step, h]

theorem runCommand_ok {cmd : CmdWord} {data : Word} {i : Instr} (h : decode cmd data = .ok i) (s : State) :
    runCommand cmd data s = exec i s := by
  simp only [runCommand, h]

theorem runCommand_error {cmd : CmdWord} {data : Word} {e : DecodeError} (h : decode cmd data = .error e) (s : State) :
    runCommand cmd data s = illegalWord s := by
  simp only [runCommand, h]

/-- An illegal word spoils no unit (R77). -/
theorem illegalWord_eq (s : State) : illegalWord s = .next { s with fsr := s.fsr ||| 0b10, resp := some ⟨1, 0⟩ } := rfl

/-- Settles O1: the word is taken off the inputs and run. -/
theorem stepRunsDecodedCommand : Obligations.StepRunsDecodedCommand := by
  intro s cmd data rest i h hd
  exact (step_command h).trans (runCommand_ok hd _)

/-- Settles O2: the fault ILLEGAL of no unit records its bit and responds. -/
theorem illegalWordFaultsIllegal : Obligations.IllegalWordFaultsIllegal := by
  intro s cmd data rest e h hd
  exact (step_command h).trans ((runCommand_error hd _).trans (illegalWord_eq _))

/-! ## Every word is answered (O50) -/

/-- No effect takes an input or changes the presented packet. -/
theorem Effect.inputs_offer {i : Instr} {s u : State} (h : Effect i s u) : u.inputs = s.inputs ∧ u.offer = s.offer := by
  by_cases hi : i = .srst
  · subst hi
    obtain rfl : u = resetBlock s := h
    exact ⟨rfl, rfl⟩
  · cases h.unitUpdate hi <;> exact ⟨rfl, rfl⟩

/-- The answer to a command: a next state with a response, the inputs and the presented packet as they were. -/
def Answered (s : State) (a : Result) : Prop :=
  ∃ t p, a = .next t ∧ t.resp = some p ∧ t.inputs = s.inputs ∧ t.offer = s.offer

theorem answered_raise (u : UnitClass) (c : FaultCode) (s : State) : Answered s (raise u c s) :=
  ⟨_, _, rfl, rfl, rfl, rfl⟩

theorem exec_answered (i : Instr) (s : State) : Answered s (exec i s) := by
  rcases exec_outcome i s with ⟨_, h, c, _, rfl, _⟩ | ⟨rd, u, h, he⟩
  · rw [h]
    exact answered_raise _ c s
  · exact ⟨_, _, h, rfl, he.inputs_offer⟩

theorem runCommand_answered (cmd : CmdWord) (data : Word) (s : State) : Answered s (runCommand cmd data s) := by
  cases hd : decode cmd data with
  | ok i =>
    rw [runCommand_ok hd]
    exact exec_answered i s
  | error =>
    rw [runCommand_error hd]
    exact answered_raise .system .illegal s

/-- Settles O50: a decoded command is answered by its fault or its effect, an illegal word by its fault. -/
theorem everyWordIsAnswered : Obligations.EveryWordIsAnswered := by
  intro s cmd data rest h
  rw [step_command h]
  exact runCommand_answered cmd data (s.setInputs rest)

end Sys2Proof.Machine

/-! SUPPORT. The system commands (spec rules R35, R90 to R92), and the words that issue a command (R71 to R74, R77), said once for
every `OP`. -/

namespace Sys2Proof

/-- A word with a command's `OP` and an unused field that is not 0 is refused (R77). -/
theorem decode_of_not_unusedZero {o : Op} {cmd : CmdWord} (hc : o.code = opField cmd)
    (hu : ¬ unusedZero o.format (aField cmd) (bField cmd) (cField cmd)) (data : Word) :
    decode cmd data = .error .fieldNotZero := by
  have hm : ¬ cmd &&& o.format.mask = o.matchWord := fun hm => hu ((mask_match o cmd).mp hm).2
  simp [decode, (opOf_eq_some _ _).mpr hc, hm]

end Sys2Proof

namespace Sys2Proof.Machine

/-! ## The words that issue a command -/

/-- Every command is issued as its row of the opcode map says. -/
theorem issuedAs_build (o : Op) : IssuedAs o.code o.format o.build := by
  intro s cmd data rest h hc
  constructor
  · intro hu
    exact stepRunsDecodedCommand s cmd data rest _ h (decode_of_unusedZero hc.symm hu data)
  · intro hu
    exact illegalWordFaultsIllegal s cmd data rest _ h (decode_of_not_unusedZero hc.symm hu data)

/-! ## NOP and SRST (O12, O14) -/

/-- Settles O12: the response is all that NOP writes. -/
theorem nopOnlyResponds : Obligations.NopOnlyResponds :=
  ⟨issuedAs_build .nop, fun _ => rfl⟩

/-- Settles O14: SRST responds after the reset of the block, whose slots are copies of the reset one. -/
theorem srstResetsEveryElement : Obligations.SrstResetsEveryElement := by
  refine ⟨issuedAs_build .srst, fun s => ⟨(resetBlock s).h, rfl, resetBlock_h_length s, fun k hk => ?_⟩⟩
  obtain rfl : k = Sketch.reset := List.eq_of_mem_replicate hk
  exact ⟨rfl, rfl⟩

/-! ## The layouts of the status registers (R35) -/

/-- Fields side by side weigh as their places say. -/
theorem toNat_append_eq_add {m n : Nat} (x : BitVec m) (y : BitVec n) : (x ++ y).toNat = x.toNat * 2 ^ n + y.toNat := by
  rw [BitVec.toNat_append, ← Nat.shiftLeft_add_eq_or_of_lt y.isLt, Nat.shiftLeft_eq]

/-- A register reads as the number its fields make. -/
theorem zeroExtend_eq_ofNat {m v : Nat} {x : BitVec m} (h : x.toNat = v) : x.zeroExtend 64 = BitVec.ofNat 64 v := by
  rw [← h]
  exact (BitVec.ofNat_toNat 64 x).symm

theorem fsrValue_eq (s : State) : fsrValue s = BitVec.ofNat 64 (2 * (s.fsr.toNat / 2)) := by
  refine zeroExtend_eq_ofNat ?_
  have hfsr := s.fsr.isLt
  simp only [toNat_append_eq_add, BitVec.extractLsb'_toNat, Nat.shiftRight_eq_div_pow, BitVec.toNat_ofNat]
  omega

theorem wsrValue_eq (s : State) : wsrValue s = BitVec.ofNat 64
    (s.w.wst.code.toNat + 2 ^ 4 * s.w.wbit.toNat + 2 ^ 7 * s.w.snkDone.toNat + 2 ^ 8 * s.w.wcur.toNat) := by
  refine zeroExtend_eq_ofNat ?_
  simp only [toNat_append_eq_add, BitVec.toNat_ofBool, BitVec.toNat_ofNat]
  omega

theorem rsrValue_eq (s : State) : rsrValue s = BitVec.ofNat 64
    (s.r.rst.code.toNat + 2 ^ 4 * s.r.rbit.toNat + 2 ^ 8 * s.r.rcur.toNat) := by
  refine zeroExtend_eq_ofNat ?_
  simp only [toNat_append_eq_add, BitVec.toNat_ofNat]
  omega

theorem hsrValue_eq (s : State) : hsrValue s = BitVec.ofNat 64 s.mm.toNat :=
  zeroExtend_eq_ofNat (BitVec.toNat_ofBool s.mm)

/-- The number of slots is not cut off where its field holds it. -/
theorem cfgValue_eq {s : State} (h : s.h.length < 2 ^ 8) : cfgValue s = BitVec.ofNat 64 (s.h.length + 2 ^ 8 * 1) := by
  refine zeroExtend_eq_ofNat ?_
  have hversion : Config.version.toNat = 1 := rfl
  simp only [toNat_append_eq_add, hversion, State.nsketch, BitVec.toNat_ofNat]
  omega

theorem hcfgValue_eq (k : Sketch) : hcfgValue k = BitVec.ofNat 64 (k.valid.toNat + 2 ^ 4 * k.b.toNat) := by
  refine zeroExtend_eq_ofNat ?_
  simp only [toNat_append_eq_add, BitVec.toNat_ofBool, BitVec.toNat_ofNat]
  omega

/-! ## The map and RDSR (O13) -/

/-- The registers of the slots follow one another from 0x10 on. -/
theorem statusRegister_slot (s : State) (n : Nat) : statusRegister s (0x10 + n) = s.h[n]?.map hcfgValue := by
  have hfixed : ∀ a < 0x10, 0x10 + n ≠ a := fun a ha => by omega
  simp [statusRegister, hfixed]

/-- No register stands between `CFG` and the first slot, or after the last one. -/
theorem statusRegister_eq_none {s : State} {a : Nat} (h : (0x06 < a ∧ a < 0x10) ∨ 0x10 + s.h.length ≤ a) :
    statusRegister s a = none := by
  rcases h with ⟨hlo, hhi⟩ | hn
  · have hfixed : ∀ b ≤ 0x06, a ≠ b := fun b hb => by omega
    simp [statusRegister, hfixed, hhi]
  · obtain ⟨n, rfl⟩ := Nat.exists_eq_add_of_le ((Nat.le_add_right 0x10 _).trans hn)
    rw [statusRegister_slot, List.getElem?_eq_none (Nat.le_of_add_le_add_left hn), Option.map_none]

theorem exec_rdsr_of_some {s : State} {a : Nat} {v : Word} (h : statusRegister s a = some v) :
    exec (.rdsr a) s = .next { s with resp := some ⟨0, v⟩ } := by
  simp only [exec, execRdsr, h]
  rfl

theorem exec_rdsr_of_none {s : State} {a : Nat} (h : statusRegister s a = none) :
    exec (.rdsr a) s = .next { s with fsr := s.fsr ||| 0b10, resp := some ⟨1, 0⟩ } := by
  simp only [exec, execRdsr, h]
  exact illegalWord_eq s

/-- Settles O13: RDSR answers what the map holds at the address, register by register, and is illegal where it holds none. -/
theorem rdsrReadsTheMap : Obligations.RdsrReadsTheMap := by
  refine ⟨issuedAs_build .rdsr, fun s => ⟨?fsr, ?wsr, ?wpos, ?rsr, ?rpos, ?hsr, ?cfg, ?hcfg, ?unmapped⟩⟩
  case fsr => exact exec_rdsr_of_some (congrArg some (fsrValue_eq s))
  case wsr => exact exec_rdsr_of_some (congrArg some (wsrValue_eq s))
  case wpos => exact exec_rdsr_of_some (by simp [statusRegister])
  case rsr => exact exec_rdsr_of_some (congrArg some (rsrValue_eq s))
  case rpos => exact exec_rdsr_of_some (by simp [statusRegister])
  case hsr => exact exec_rdsr_of_some (congrArg some (hsrValue_eq s))
  case cfg => exact fun h => exec_rdsr_of_some (congrArg some (cfgValue_eq h))
  case hcfg => exact fun n k hk => exec_rdsr_of_some (by rw [statusRegister_slot, hk, Option.map_some, hcfgValue_eq])
  case unmapped => exact fun a ha => exec_rdsr_of_none (statusRegister_eq_none ha)

end Sys2Proof.Machine

/-! SUPPORT. The bit writer (spec rules R56, R57, R66, R100 to R107): what its commands do on a writer that is open and on one that is
not, the slice as a field, the encoder's bytes as the varint of R56, and alignment as zero bits. -/

namespace Sys2Proof.Machine

/-! ## A writer that is not open, and one that is -/

/-- Every writer command but WOPEN needs an open writer; else it sets `FSR[3]`, responds, and changes nothing else (R143, R144). -/
theorem exec_of_not_opened {i : Instr} {s : State} (hu : unitOf i.op = .writer) (hi : i ≠ .wopen) (hs : s.w.wst ≠ .opened) :
    exec i s = .next { s with fsr := s.fsr ||| 0b1000, resp := some ⟨3, 0⟩ } := by
  cases i with
  | wopen => exact absurd rfl hi
  | wbits | wbit | wv64 | wv32 | walign | wflush => exact if_pos hs
  | _ => cases hu

section
variable {s : State} (hs : s.w.wst = .opened)
include hs

/-- WIDTH on an open writer spoils the instance (R144, R145). -/
theorem exec_wbits_of_opened_illegal {n p : Nat} (hw : n < 1 ∨ 64 < n + p) (value : Word) :
    exec (.wbits n p value) s =
      .next { s with w := { s.w with wst := .faulted }, fsr := s.fsr ||| 0b100, resp := some ⟨2, 0⟩ } :=
  (if_neg (not_not_intro hs)).trans (if_pos hw)

theorem exec_wbits_of_opened_legal {n p : Nat} (hw : ¬ (n < 1 ∨ 64 < n + p)) (value : Word) :
    exec (.wbits n p value) s = .next { s with w := put (slice value n p) n s.w, resp := some ⟨0, 0⟩ } :=
  (if_neg (not_not_intro hs)).trans (if_neg hw)

theorem exec_wbit_of_opened (bit : Bool) :
    exec (.wbit bit) s = .next { s with w := putBit bit s.w, resp := some ⟨0, 0⟩ } :=
  if_neg (not_not_intro hs)

theorem exec_wv64_of_opened (value : Word) :
    exec (.wv64 value) s = .next { s with w := putBytes (varintEncode value) s.w, resp := some ⟨0, 0⟩ } :=
  if_neg (not_not_intro hs)

theorem exec_wv32_of_opened (value : BitVec 32) :
    exec (.wv32 value) s =
      .next { s with w := putBytes (varintEncode (value.zeroExtend 64)) s.w, resp := some ⟨0, 0⟩ } :=
  if_neg (not_not_intro hs)

theorem exec_walign_of_opened : exec .walign s = .next { s with w := alignWriter s.w, resp := some ⟨0, 0⟩ } :=
  if_neg (not_not_intro hs)

theorem exec_wflush_of_opened :
    exec .wflush s =
      .next { s with w := { alignWriter s.w with snkDone := true, wst := .flushed }, resp := some ⟨0, 0⟩ } :=
  if_neg (not_not_intro hs)

end

/-! ## Opening (O15) -/

/-- Settles O15: WOPEN does not look at the state of the writer. -/
theorem wopenStartsFreshInstance : Obligations.WopenStartsFreshInstance :=
  ⟨issuedAs_build .wopen, fun _ => rfl⟩

/-! ## Fields and single bits (O16, O17, O18) -/

/-- Bit `j` of a slice is bit `p + j` of the value, and 0 from bit `n` on (R11). -/
theorem slice_getLsbD (value : Word) {n : Nat} (hn : n ≤ 64) (p j : Nat) :
    (slice value n p).getLsbD j = (decide (j < n) && value.getLsbD (p + j)) := by
  have hmask : (mask n).getLsbD j = decide (j < n) := by
    rw [mask, BitVec.getLsbD_ofNat, Nat.testBit_two_pow_sub_one, ← Bool.decide_and]
    exact decide_eq_decide.mpr ⟨And.right, fun h => ⟨h.trans_le hn, h⟩⟩
  rw [slice, shr, BitVec.getLsbD_and, BitVec.getLsbD_ushiftRight, hmask, Bool.and_comm]

/-- The slice that `put` takes is the field of the statement. -/
theorem fieldBits_slice (value : Word) {n : Nat} (hn : n ≤ 64) (p : Nat) :
    fieldBits (slice value n p) n = fieldBits (value.extractLsb' p n) n :=
  fieldBits_congr _ _ n fun j _ => by rw [slice_getLsbD value hn, BitVec.getLsbD_extractLsb']

/-- Settles O16: STATE is tested before WIDTH, and `put` appends the slice. -/
theorem wbitsPutsTheSlice : Obligations.WbitsPutsTheSlice := by
  refine ⟨issuedAs_build .wbits, fun s n p value => ⟨exec_of_not_opened rfl nofun, fun hs hw => ?width, fun hs hn hp => ?slice⟩⟩
  case width => exact exec_wbits_of_opened_illegal hs (hw.imp_left Nat.lt_one_iff.mpr) value
  case slice =>
    refine ⟨_, exec_wbits_of_opened_legal hs (by omega) value, ?_⟩
    rw [← fieldBits_slice value (by omega) p]
    exact appended_put _ n s.w

/-- Settles O17: one turn of the loop of `put` appends the bit. -/
theorem wbitPutsOneBit : Obligations.WbitPutsOneBit := by
  refine ⟨issuedAs_build .wbit, fun s bit => ⟨exec_of_not_opened rfl nofun, fun hs => ?_⟩⟩
  exact ⟨_, exec_wbit_of_opened hs bit, appended_putBit bit s.w⟩

/-- Settles O18: both fault STATE on a writer that is not open, and a field of one bit is one turn of the loop of `put`. -/
theorem wbitIsWbitsOfWidthOne : Obligations.WbitIsWbitsOfWidthOne := by
  intro s data
  by_cases hs : s.w.wst = .opened
  · have hbit : (slice data 1 0).getLsbD 0 = data.getLsbD 0 := slice_getLsbD data (by decide) 0 0
    rw [exec_wbit_of_opened hs, exec_wbits_of_opened_legal hs (by decide), put, put, hbit]
  · rw [exec_of_not_opened (i := .wbit _) rfl nofun hs, exec_of_not_opened (i := .wbits _ _ _) rfl nofun hs]

/-! ## Varints (O19, O20) -/

theorem bitlength_le_iff (u k : Nat) : bitlength u ≤ k ↔ u < 2 ^ k := by
  unfold bitlength
  split
  next h => simp [h]
  next h => exact Nat.succ_le_iff.trans (Nat.log2_lt h)

/-- A varint of a number below `2^(7k)` has at most `k` bytes. -/
theorem isVarintOf.length_le {u : Nat} {l : List Byte} (h : isVarintOf u l) {k : Nat} (hk : 1 ≤ k) (hu : u < 2 ^ (7 * k)) :
    l.length ≤ k := by
  obtain ⟨hlen, _⟩ := h
  have hbits := (bitlength_le_iff u (7 * k)).mpr hu
  omega

/-- Byte `i` holds group `i` of the number the bytes make (R56). -/
theorem getElem_mod_eq_group : ∀ (l : List Byte) (i : Nat) (h : i < l.length),
    l[i].toNat % 128 = groupsValue l / 2 ^ (7 * i) % 128
  | b :: l, 0, _ => by simp [groupsValue]
  | b :: l, i + 1, h => by
    have htail : groupsValue (b :: l) / 128 = groupsValue l := by
      rw [groupsValue]
      omega
    rw [List.getElem_cons_succ, getElem_mod_eq_group l i (by simpa using h), ← htail, Nat.div_div_eq_div_mul,
      Nat.mul_succ, Nat.add_comm, pow_add]
    rfl

/-- A byte is its group and its flag (R56). -/
theorem byte_eq_group_add_flag (b : Byte) : b.toNat = b.toNat % 128 + if b.getLsbD 7 then 128 else 0 := by
  have hflag : b.getLsbD 7 = decide (128 ≤ b.toNat) := BitVec.msb_eq_decide b
  have hlt := b.isLt
  simp only [hflag, decide_eq_true_eq]
  split <;> omega

/-- In a complete varint every byte but the last has its flag set. -/
theorem isVarint.flag_eq {l : List Byte} (h : isVarint l) (i : Nat) (hi : i < l.length) :
    l[i].getLsbD 7 = decide (i + 1 < l.length) := by
  obtain ⟨m, b, rfl, hm, hb⟩ := h
  rw [List.length_append, List.length_singleton] at hi ⊢
  by_cases him : i < m.length
  · rw [List.getElem_append_left him, hm _ (List.getElem_mem him), decide_eq_true (by omega)]
  · rw [List.getElem_append_right (by omega), List.getElem_singleton, hb, decide_eq_false (by omega)]

/-- A complete varint without a byte to spare is the varint of R56. -/
theorem isVarint.isVarintOf {l : List Byte} (h : isVarint l) (h1 : 1 ≤ l.length)
    (hmin : l.length ≠ 1 → 2 ^ (7 * (l.length - 1)) ≤ groupsValue l) : isVarintOf (groupsValue l) l := by
  constructor
  · have hup := (bitlength_le_iff _ _).mpr (groupsValue_lt l)
    by_cases hl : l.length = 1
    · omega
    · have hlow := mt (bitlength_le_iff _ _).mp (Nat.not_lt.mpr (hmin hl))
      omega
  · intro i hi
    rw [byte_eq_group_add_flag l[i], getElem_mod_eq_group l i hi, h.flag_eq i hi]
    simp only [decide_eq_true_eq]

/-- The encoder gives the varint of its operand (R56, R102). -/
theorem isVarintOf_varintEncode (v : Word) : isVarintOf v.toNat (varintEncode v) := by
  obtain ⟨hv, hval, _, h1, hmin⟩ := varintEncode_spec v
  rw [← hval] at hmin ⊢
  exact hv.isVarintOf h1 hmin

/-- On a byte boundary every bit written is in `SNK` (R66). -/
theorem Writer.bits_of_boundary {w : Writer} (h : w.wbit = 0) : w.bits = bytesBits w.snk := by
  simp [Writer.bits, h]

/-- Whole bytes leave the cursor at the bit offset it has. -/
theorem Appended.wbit_of_bytes {w w' : Writer} {l : List Byte} (h : Appended w w' (bytesBits l)) : w'.wbit = w.wbit := by
  apply BitVec.eq_of_toNat_eq
  have hlt := wbit_lt w
  rw [h.wbit, bytesBits_length]
  omega

/-- Whole bytes put on a byte boundary are packet bytes (R57). -/
theorem Appended.snk_of_bytes {w w' : Writer} {l : List Byte} (h : Appended w w' (bytesBits l)) (hw : w.wbit = 0) :
    w'.snk = w.snk ++ l :=
  Writer.snk_eq_of_bits w' _ (h.wbit_of_bytes.trans hw) (by rw [h.bits, Writer.bits_of_boundary hw, bytesBits_append])

/-- Settles O19: the encoder's bytes are the varint, and `put` appends them at any bit offset. -/
theorem wv64PutsTheVarint : Obligations.Wv64PutsTheVarint := by
  refine ⟨issuedAs_build .wv64, fun s value => ⟨exec_of_not_opened rfl nofun, fun hs => ?_⟩⟩
  have hv := isVarintOf_varintEncode value
  have ha := appended_putBytes (varintEncode value) s.w
  exact ⟨_, _, exec_wv64_of_opened hs value, hv, hv.length_le (by decide) (value.isLt.trans (by decide)), ha, ha.wbit_of_bytes,
    ha.snk_of_bytes⟩

/-- Settles O20: the loop of WV64 on the zero-extended operand, which needs five groups at most. -/
theorem wv32PutsTheVarint : Obligations.Wv32PutsTheVarint := by
  refine ⟨issuedAs_build .wv32, fun s value => ⟨exec_of_not_opened rfl nofun, fun hs => ?_⟩⟩
  have hval : (value.zeroExtend 64).toNat = value.toNat := BitVec.toNat_setWidth_of_le (by decide)
  have hv := isVarintOf_varintEncode (value.zeroExtend 64)
  rw [hval] at hv
  have ha := appended_putBytes (varintEncode (value.zeroExtend 64)) s.w
  exact ⟨_, _, exec_wv32_of_opened hs value, hv, hv.length_le (by decide) (value.isLt.trans (by decide)), ha, ha.wbit_of_bytes,
    ha.snk_of_bytes⟩

/-! ## Alignment and the end of the packet (O21, O22, O23) -/

/-- Settles O21: the cursor decides whether there is a partial byte to emit. -/
theorem walignEmitsThePartialByte : Obligations.WalignEmitsThePartialByte := by
  refine ⟨issuedAs_build .walign, fun s => ⟨exec_of_not_opened rfl nofun, fun hs h0 => ?boundary, fun hs h0 => ?inner⟩⟩
  case boundary => rw [exec_walign_of_opened hs, alignWriter, if_pos h0]
  case inner =>
    rw [exec_walign_of_opened hs, alignWriter, if_neg h0]
    rfl

/-- Settles O22: WFLUSH marks the state WALIGN leaves, and that state is not open. -/
theorem wflushEndsThePacket : Obligations.WflushEndsThePacket := by
  refine ⟨issuedAs_build .wflush, fun s => ⟨exec_of_not_opened rfl nofun, fun hs => ?_⟩⟩
  exact ⟨_, _, _, exec_walign_of_opened hs, exec_wflush_of_opened hs, rfl, rfl, exec_of_not_opened rfl nofun nofun, rfl⟩

/-- After alignment `SNK` holds the bits written before, then the padding. -/
theorem bytesBits_alignWriter_snk {w : Writer} (hp : w.padded) :
    bytesBits (alignWriter w).snk = w.bits ++ List.replicate ((8 - w.wbit.toNat) % 8) false := by
  rw [← Writer.bits_of_boundary (alignWriter_wbit w)]
  exact (appended_alignWriter w hp).bits

/-- After alignment `SNK` has a byte for every eight bits begun. -/
theorem alignWriter_snk_length {w : Writer} (hp : w.padded) : (alignWriter w).snk.length = (w.bits.length + 7) / 8 := by
  have hlen := congrArg List.length (bytesBits_alignWriter_snk hp)
  have hlt := wbit_lt w
  have hbits := w.bits_length
  rw [bytesBits_length, List.length_append, List.length_replicate] at hlen
  omega

/-- Settles O23: WFLUSH and WALIGN leave the same `SNK` and cursor, those of an aligned writer. -/
theorem aligningPadsWithZeroBits : Obligations.AligningPadsWithZeroBits := by
  intro s i hi hs hp
  have haligned := And.intro (alignWriter_wbit s.w) (And.intro (bytesBits_alignWriter_snk hp) (alignWriter_snk_length hp))
  rcases hi with rfl | rfl
  · exact ⟨_, exec_walign_of_opened hs, rfl, haligned⟩
  · exact ⟨_, exec_wflush_of_opened hs, rfl, haligned⟩

end Sys2Proof.Machine

/-! SUPPORT. The bit reader (spec rules R67, R110 to R115, R117): what its commands do on a reader that is open and on one that is not,
one reading of varints for both widths, and the stream that a list of fields leaves for the mirrored commands. -/

namespace Sys2Proof.Machine

/-! ## Opening (O24) -/

/-- Settles O24: ROPEN does not look at the state of the reader. -/
theorem ropenBindsThePacket : Obligations.RopenBindsThePacket :=
  ⟨issuedAs_build .ropen, fun _ => rfl⟩

/-! ## A reader that is not open, and one that is -/

/-- Every reader command but ROPEN needs an open reader; else it sets `FSR[3]`, responds, and changes nothing else (R143, R144). -/
theorem exec_of_not_ropened {i : Instr} {s : State} (hu : unitOf i.op = .reader) (hi : i ≠ .ropen) (hs : s.r.rst ≠ .opened) :
    exec i s = .next { s with fsr := s.fsr ||| 0b1000, resp := some ⟨3, 0⟩ } := by
  cases i with
  | ropen => exact absurd rfl hi
  | rbits | rv64 | rv32 | ralign => exact if_pos hs
  | _ => cases hu

/-- A read that succeeds: the command answers `v`, moves the cursor by `n` bits and leaves the reader open on the same packet. -/
def Reads (i : Instr) (s : State) (v : Word) (n : Nat) : Prop :=
  ∃ r, exec i s = .next { s with r := r, resp := some ⟨0, v⟩ } ∧
    r.position = s.r.position + n ∧ r.src = s.r.src ∧ r.rst = .opened ∧ r.Inv

section
variable {s : State} (hs : s.r.rst = .opened)
include hs

/-- What the laws of the reader's bit path give of a read makes it one that succeeds. -/
theorem Reads.of_cursor {i : Instr} {v : Word} {n : Nat} {r : Reader}
    (he : exec i s = .next { s with r := r, resp := some ⟨0, v⟩ }) (hp : r.position = s.r.position + n)
    (hsrc : r.src = s.r.src) (hrst : r.rst = s.r.rst) (hc : r.Cursor) : Reads i s v n :=
  ⟨r, he, hp, hsrc, hrst.trans hs, hc.inv (by simp [hrst, hs])⟩

/-- WIDTH on an open reader spoils the instance (R144, R145). -/
theorem exec_rbits_of_ropened_illegal {n : Nat} (hn : n < 1 ∨ 64 < n) :
    exec (.rbits n) s =
      .next { s with r := { s.r with rst := .faulted }, fsr := s.fsr ||| 0b100, resp := some ⟨2, 0⟩ } :=
  (if_neg (not_not_intro hs)).trans (if_pos hn)

/-- EOS on an open reader spoils the instance (R144, R145). -/
theorem exec_rbits_of_ropened_eos {n : Nat} (hn : ¬ (n < 1 ∨ 64 < n)) (ha : avail s.r < n) :
    exec (.rbits n) s =
      .next { s with r := { s.r with rst := .faulted }, fsr := s.fsr ||| 0b10000, resp := some ⟨4, 0⟩ } :=
  (if_neg (not_not_intro hs)).trans ((if_neg hn).trans (if_pos ha))

/-- RBITS answers the next `n` bits as a number (R67, R110). -/
theorem reads_rbits (hi : s.r.Inv) {n : Nat} (hn : ¬ (n < 1 ∨ 64 < n)) (ha : n ≤ avail s.r) :
    Reads (.rbits n) s (BitVec.ofNat 64 (bitsValue (s.r.rest.take n))) n := by
  obtain ⟨r, hget, hp, hsrc, hrst, hc⟩ := get_spec hi.cursor n ha
  refine .of_cursor hs ?_ hp hsrc hrst hc
  refine (if_neg (not_not_intro hs)).trans ((if_neg hn).trans ((if_neg (Nat.not_lt.mpr ha)).trans ?_))
  rw [hget]
  rfl

theorem exec_ralign_of_ropened : exec .ralign s = .next { s with r := alignReader s.r, resp := some ⟨0, 0⟩ } :=
  if_neg (not_not_intro hs)

/-- RALIGN moves the cursor to the byte boundary (R114). -/
theorem reads_ralign (hi : s.r.Inv) : Reads .ralign s 0 ((8 - s.r.rbit.toNat) % 8) := by
  obtain ⟨hp, hsrc, hrst, hc⟩ := alignReader_spec hi.cursor
  exact .of_cursor hs (exec_ralign_of_ropened hs) hp hsrc hrst hc

end

/-! ## Fields and alignment (O25, O28) -/

/-- Settles O25: STATE is tested before WIDTH and WIDTH before EOS, and `get` reads the field. -/
theorem rbitsReadsTheNextBits : Obligations.RbitsReadsTheNextBits := by
  refine ⟨issuedAs_build .rbits, fun s n => ⟨exec_of_not_ropened rfl nofun, fun hs hn => ?width, fun hs h1 h64 hp => ?eos,
    fun hs hi h1 h64 hp => ?field⟩⟩
  case width => exact exec_rbits_of_ropened_illegal hs (hn.imp_left Nat.lt_one_iff.mpr)
  case eos =>
    have ha : avail s.r < n := by
      rw [avail_eq]
      omega
    exact exec_rbits_of_ropened_eos hs (by omega) ha
  case field =>
    have ha : n ≤ avail s.r := by
      rw [avail_eq]
      omega
    exact reads_rbits hs hi (by omega) ha

/-- Settles O28: the cursor decides whether there is a partial byte to discard. -/
theorem ralignSkipsThePartialByte : Obligations.RalignSkipsThePartialByte := by
  refine ⟨issuedAs_build .ralign, fun s => ⟨exec_of_not_ropened rfl nofun, fun hs h0 => ?boundary, fun hs h0 => ?inner⟩⟩
  case boundary => rw [exec_ralign_of_ropened hs, alignReader, if_pos h0]
  case inner =>
    rw [exec_ralign_of_ropened hs, alignReader, if_neg h0]
    rfl

/-! ## Varints (O26, O27) -/

/-- A command that reads a varint of `width` bits in at most `groups` groups through the loop of R112: it needs an open reader, raises
the fault of the loop, and answers its value zero-extended. -/
structure VarintCommand (i : Instr) (width groups : Nat) : Prop where
  closed : ∀ {s : State}, s.r.rst ≠ .opened → exec i s = .next { s with fsr := s.fsr ||| 0b1000, resp := some ⟨3, 0⟩ }
  error : ∀ {s : State} {c : FaultCode}, s.r.rst = .opened → getVarint width groups s.r = .error c →
    exec i s = raise .reader c s
  ok : ∀ {s : State} {v : BitVec width} {r : Reader}, s.r.rst = .opened → getVarint width groups s.r = .ok (v, r) →
    exec i s = .next { s with r := r, resp := some ⟨0, v.zeroExtend 64⟩ }

theorem varintCommand_rv64 : VarintCommand .rv64 64 10 where
  closed := exec_of_not_ropened rfl nofun
  error hs hg := by
    refine (if_neg (not_not_intro hs)).trans ?_
    rw [hg]
  ok {_ v _} hs hg := by
    have hv : v.zeroExtend 64 = v := BitVec.setWidth_eq v
    refine (if_neg (not_not_intro hs)).trans ?_
    rw [hg, hv]
    rfl

theorem varintCommand_rv32 : VarintCommand .rv32 32 5 where
  closed := exec_of_not_ropened rfl nofun
  error hs hg := by
    refine (if_neg (not_not_intro hs)).trans ?_
    rw [hg]
  ok hs hg := by
    refine (if_neg (not_not_intro hs)).trans ?_
    rw [hg]
    rfl

/-- A number that fits a width keeps its value when it is extended from it. -/
theorem zeroExtend_ofNat_of_lt {width n : Nat} (h : n < 2 ^ width) :
    (BitVec.ofNat width n).zeroExtend 64 = BitVec.ofNat 64 n := by
  apply BitVec.eq_of_toNat_eq
  simp [Nat.mod_eq_of_lt h]

section
variable {i : Instr} {width groups : Nat} (hv : VarintCommand i width groups) (hw : 7 ≤ width) (hg : 7 * (groups - 1) < width)
include hv hw hg

/-- A complete varint that fits is answered, padded or not. -/
theorem VarintCommand.reads {s : State} {bytes : List Byte} {tail : List Bool} (hs : s.r.rst = .opened) (hi : s.r.Inv)
    (hrest : s.r.rest = bytesBits bytes ++ tail) (hbytes : isVarint bytes) (hlen : bytes.length ≤ groups)
    (hfit : groupsValue bytes < 2 ^ width) :
    Reads i s (BitVec.ofNat 64 (groupsValue bytes)) (8 * bytes.length) := by
  obtain ⟨r, hget, hp, hsrc, hrst, hc, _⟩ := getVarint_accept width groups hw hg hi.cursor bytes tail hbytes hlen hfit hrest
  have he := hv.ok hs hget
  rw [zeroExtend_ofNat_of_lt hfit] at he
  exact .of_cursor hs he hp hsrc hrst hc

/-- R112 and R113 follow from what the loop accepts and refuses. -/
theorem VarintCommand.varintRead : VarintRead i width groups := by
  intro s
  refine ⟨hv.closed, fun bytes tail hs hi hrest => hv.reads hw hg hs hi hrest, fun bytes tail hs hi hrest hcont hlen htail => ?eos,
    fun bytes last tail hs hi hrest hcont hlen hlast => ?varint⟩
  case eos => exact hv.error hs (getVarint_eos width groups hi.cursor bytes tail hlen hcont hrest htail)
  case varint =>
    subst hlen
    exact hv.error hs (getVarint_varint width _ hi.cursor bytes last tail rfl hcont hrest hlast)

end

/-- Settles O26: the loop at 64 bits, whose tenth group holds one bit. -/
theorem rv64ReadsTheVarint : Obligations.Rv64ReadsTheVarint :=
  ⟨issuedAs_build .rv64, varintCommand_rv64.varintRead (by decide) (by decide)⟩

/-- Settles O27: the loop at 32 bits, whose fifth group holds four bits. -/
theorem rv32ReadsTheVarint : Obligations.Rv32ReadsTheVarint :=
  ⟨issuedAs_build .rv32, varintCommand_rv32.varintRead (by decide) (by decide)⟩

/-! ## The round trip (O29) -/

/-- The bits a write command puts when the stream already holds `k` bits (R55, R57, R105): `k` matters for the padding alone. -/
def FieldWrite.bitsAt : FieldWrite → Nat → List Bool
  | .bits n p value, _ => fieldBits (slice value n p) n
  | .bit b, _ => [b]
  | .varint64 value, _ => bytesBits (varintEncode value)
  | .varint32 value, _ => bytesBits (varintEncode (value.zeroExtend 64))
  | .align, k => List.replicate ((8 - k % 8) % 8) false

/-- The bits a list of write commands puts when the stream already holds `k` bits. -/
def streamAt : List FieldWrite → Nat → List Bool
  | [], _ => []
  | f :: fields, k => f.bitsAt k ++ streamAt fields (k + (f.bitsAt k).length)

/-- A legal write on an open writer puts its bits and answers OK. -/
theorem FieldWrite.exec_command {f : FieldWrite} (hf : f.legal) {s : State} (hs : s.w.wst = .opened) (hp : s.w.padded) :
    ∃ w, exec f.command s = .next { s with w := w, resp := some ⟨0, 0⟩ } ∧ Appended s.w w (f.bitsAt s.w.bits.length) := by
  cases f with
  | bits n p value =>
    obtain ⟨h1, h64⟩ : 1 ≤ n ∧ n + p ≤ 64 := hf
    exact ⟨_, exec_wbits_of_opened_legal hs (by omega) value, appended_put _ n s.w⟩
  | bit b => exact ⟨_, exec_wbit_of_opened hs b, appended_putBit b s.w⟩
  | varint64 value => exact ⟨_, exec_wv64_of_opened hs value, appended_putBytes _ s.w⟩
  | varint32 value => exact ⟨_, exec_wv32_of_opened hs value, appended_putBytes _ s.w⟩
  | align =>
    have hoffset : s.w.bits.length % 8 = s.w.wbit.toNat := by
      have hlt := wbit_lt s.w
      rw [s.w.bits_length]
      omega
    refine ⟨_, exec_walign_of_opened hs, ?_⟩
    rw [bitsAt, hoffset]
    exact appended_alignWriter s.w hp

/-- A slice of `n` bits is a number below `2^n` (R11). -/
theorem slice_toNat_lt (value : Word) {n : Nat} (hn : n ≤ 64) (p : Nat) : (slice value n p).toNat < 2 ^ n := by
  have hmask : (mask n).toNat = 2 ^ n - 1 := by
    have hle := Nat.pow_le_pow_right (n := 2) (by decide) hn
    rw [mask, BitVec.toNat_ofNat, Nat.mod_eq_of_lt (by omega)]
  rw [slice, BitVec.toNat_and, hmask, Nat.and_two_pow_sub_one_eq_mod]
  exact Nat.mod_lt _ (Nat.two_pow_pos n)

/-- RBITS reads back a field of at most 64 bits that fits its width. -/
theorem reads_fieldBits {s : State} (hs : s.r.rst = .opened) (hi : s.r.Inv) {n : Nat} (h1 : 1 ≤ n) (h64 : n ≤ 64) (v : Word)
    (hv : v.toNat < 2 ^ n) {tail : List Bool} (hrest : s.r.rest = fieldBits v n ++ tail) : Reads (.rbits n) s v n := by
  have ha : n ≤ avail s.r := by
    rw [← s.r.rest_length, hrest]
    simp
  have hread := reads_rbits hs hi (by omega) ha
  rwa [hrest, List.take_left' (fieldBits_length v n), bitsValue_fieldBits, Nat.mod_eq_of_lt hv, BitVec.ofNat_toNat,
    BitVec.setWidth_eq] at hread

/-- A varint command reads back what the encoder makes of a value that fits its type. -/
theorem VarintCommand.reads_varintEncode {i : Instr} {width groups : Nat} (hv : VarintCommand i width groups) (hw : 7 ≤ width)
    (hg : 7 * (groups - 1) < width) (h1 : 1 ≤ groups) (hall : width ≤ 7 * groups) {s : State} (hs : s.r.rst = .opened)
    (hi : s.r.Inv) (v : Word) (hfit : v.toNat < 2 ^ width) {tail : List Bool}
    (hrest : s.r.rest = bytesBits (varintEncode v) ++ tail) : Reads i s v (bytesBits (varintEncode v)).length := by
  obtain ⟨hvarint, hval, _⟩ := varintEncode_spec v
  have hlen := (isVarintOf_varintEncode v).length_le h1 (hfit.trans_le (Nat.pow_le_pow_right (by decide) hall))
  have hread := hv.reads hw hg hs hi hrest hvarint hlen (hval.symm ▸ hfit)
  rwa [hval, BitVec.ofNat_toNat, BitVec.setWidth_eq, ← bytesBits_length] at hread

/-- The mirrored read takes the bits of the field and answers its value (R117). -/
theorem FieldWrite.reads_mirror {f : FieldWrite} (hf : f.legal) {s : State} (hs : s.r.rst = .opened) (hi : s.r.Inv)
    {tail : List Bool} (hrest : s.r.rest = f.bitsAt s.r.position ++ tail) :
    Reads f.mirror s f.value (f.bitsAt s.r.position).length := by
  cases f with
  | bits n p value =>
    obtain ⟨h1, h64⟩ : 1 ≤ n ∧ n + p ≤ 64 := hf
    rw [bitsAt, fieldBits_length]
    exact reads_fieldBits hs hi h1 (by omega) _ (slice_toNat_lt value (by omega) p) hrest
  | bit b =>
    have hfield : fieldBits (FieldWrite.bit b).value 1 = [b] := by cases b <;> rfl
    have hlt : (FieldWrite.bit b).value.toNat < 2 ^ 1 := by cases b <;> decide
    exact reads_fieldBits hs hi (by decide) (by decide) _ hlt (hrest.trans (by rw [hfield, bitsAt]))
  | varint64 value =>
    exact varintCommand_rv64.reads_varintEncode (by decide) (by decide) (by decide) (by decide) hs hi value value.isLt hrest
  | varint32 value =>
    have hval : (value.zeroExtend 64).toNat = value.toNat := BitVec.toNat_setWidth_of_le (by decide)
    exact varintCommand_rv32.reads_varintEncode (by decide) (by decide) (by decide) (by decide) hs hi _
      (hval.symm ▸ value.isLt) hrest
  | align =>
    have hoffset : s.r.position % 8 = s.r.rbit.toNat := by
      have hlt := rbit_lt s.r
      rw [Reader.position]
      omega
    rw [bitsAt, hoffset, List.length_replicate]
    exact reads_ralign hs hi

/-- A list of commands runs when its first command does and the rest run from there. -/
theorem runCommands_cons {i : Instr} {is : List Instr} {s t u : State} {p : Response} {ps : List Response}
    (he : exec i s = .next t) (hp : t.resp = some p) (hrun : runCommands is t = some (ps, u)) :
    runCommands (i :: is) s = some (p :: ps, u) := by
  simp only [runCommands, he, hp, hrun]

/-- Writing a list of legal fields and flushing answers OK throughout, and the packet is the stream and at most seven zero bits. -/
theorem runCommands_write : ∀ (fields : List FieldWrite) (s : State), (∀ f ∈ fields, f.legal) → s.w.wst = .opened → s.w.padded →
    ∃ t k, runCommands (fields.map FieldWrite.command ++ [.wflush]) s =
        some (List.replicate (fields.length + 1) ⟨0, 0⟩, t) ∧ k < 8 ∧
      bytesBits t.w.snk = s.w.bits ++ streamAt fields s.w.bits.length ++ List.replicate k false
  | [], s, _, hs, hp => by
    refine ⟨_, (8 - s.w.wbit.toNat) % 8, runCommands_cons (exec_wflush_of_opened hs) rfl rfl, Nat.mod_lt _ (by decide), ?_⟩
    rw [streamAt, List.append_nil]
    exact bytesBits_alignWriter_snk hp
  | f :: fields, s, hf, hs, hp => by
    obtain ⟨hhead, htail⟩ := List.forall_mem_cons.mp hf
    obtain ⟨w, he, ha⟩ := FieldWrite.exec_command hhead hs hp
    obtain ⟨t, k, hrun, hk, hsnk⟩ := runCommands_write fields { s with w := w, resp := some ⟨0, 0⟩ } htail (ha.wst.trans hs)
      (ha.padded hp)
    refine ⟨t, k, runCommands_cons he rfl hrun, hk, ?_⟩
    simpa only [ha.bits, List.length_append, streamAt, List.append_assoc] using hsnk

/-- Reading a stream of legal fields by the mirrored commands answers their values and leaves what follows the stream. -/
theorem runCommands_mirror : ∀ (fields : List FieldWrite) (s : State) (tail : List Bool), (∀ f ∈ fields, f.legal) →
    s.r.rst = .opened → s.r.Inv → s.r.rest = streamAt fields s.r.position ++ tail →
    ∃ t, runCommands (fields.map FieldWrite.mirror) s = some (fields.map (fun f => ⟨0, f.value⟩), t) ∧ t.r.rest = tail
  | [], s, tail, _, _, _, hrest => ⟨s, rfl, hrest⟩
  | f :: fields, s, tail, hf, hs, hi, hrest => by
    obtain ⟨hhead, htail⟩ := List.forall_mem_cons.mp hf
    rw [streamAt, List.append_assoc] at hrest
    obtain ⟨r, he, hp, hsrc, hrst, hinv⟩ := FieldWrite.reads_mirror hhead hs hi hrest
    have hnext : r.rest = streamAt fields r.position ++ tail := by
      rw [Reader.rest_of_moved _ hp hsrc, hrest, List.drop_left, hp]
    obtain ⟨t, hrun, ht⟩ := runCommands_mirror fields { s with r := r, resp := some ⟨0, f.value⟩ } tail htail hrst hinv hnext
    exact ⟨t, runCommands_cons he rfl hrun, ht⟩

/-- Settles O29: the flushed packet is the stream of the fields and its padding, and the reader opened on it stands at the stream's
first bit. -/
theorem roundTripOfFields : Obligations.RoundTripOfFields := by
  intro s fields hf
  obtain ⟨t, k, hwrite, hk, hsnk⟩ := runCommands_write fields { s with w := openWriter, resp := some ⟨0, 0⟩ } hf rfl
    openWriter_inv.padded
  refine ⟨t, runCommands_cons rfl rfl hwrite, fun u hoffer hbound => ?_⟩
  have hrest : (openReader u.offer).rest = streamAt fields (openReader u.offer).position ++ List.replicate k false := by
    rw [hoffer]
    exact hsnk
  obtain ⟨v, hread, hv⟩ := runCommands_mirror fields { u with r := openReader u.offer, resp := some ⟨0, 0⟩ } _ hf rfl
    (openReader_inv _ (hoffer.symm ▸ hbound)) hrest
  refine ⟨v, runCommands_cons rfl rfl hread, ?_, ?_⟩
  · rw [hv, List.length_replicate]
    exact hk
  · rw [hv]
    exact fun b hb => List.eq_of_mem_replicate hb

end Sys2Proof.Machine

/-! SUPPORT. The bit primitives (spec rules R120 to R127): the indices that hold a 1, the highest and the lowest of them, the least power
of two above a number as its bit length, and byte reversal as an order of bytes. -/

namespace Sys2Proof.Machine

/-! ## What the commands answer -/

section
variable (s : State) (x : Word) (y : BitVec 32)

theorem exec_popcnt : exec (.popcnt x) s = .next { s with resp := some ⟨0, BitVec.ofNat 64 (popCount x)⟩ } := rfl

theorem exec_clz : exec (.clz x) s = .next { s with resp := some ⟨0, BitVec.ofNat 64 (leadingZeros x)⟩ } := rfl

theorem exec_ctz : exec (.ctz x) s = .next { s with resp := some ⟨0, BitVec.ofNat 64 (trailingZeros x)⟩ } := rfl

theorem exec_ispow2 :
    exec (.ispow2 x) s = .next { s with resp := some ⟨0, if isPowerOfTwo x = true then 1 else 0⟩ } := rfl

theorem exec_bswap64 : exec (.bswap64 x) s = .next { s with resp := some ⟨0, byteSwap64 x⟩ } := rfl

theorem exec_bswap32 :
    exec (.bswap32 y) s = .next { s with resp := some ⟨0, (byteSwap32 y).zeroExtend 64⟩ } := rfl

variable {y}

theorem exec_nlpo2_of_defined (h : nextPowerDefined y = true) :
    exec (.nlpo2 y) s = .next { s with resp := some ⟨0, nextPower y⟩ } :=
  if_pos h

/-- RANGE sets `FSR[7]` and spoils no unit (R143, R144). -/
theorem exec_nlpo2_of_not_defined (h : ¬ nextPowerDefined y = true) :
    exec (.nlpo2 y) s = .next { s with fsr := s.fsr ||| 0b10000000, resp := some ⟨7, 0⟩ } :=
  if_neg h

end

/-! ## The indices that hold a 1 (O30) -/

/-- The indices of a word that hold a 1. -/
def ones (x : Word) : Finset (Fin 64) := Finset.univ.filter (fun i : Fin 64 => x.getLsbD i = true)

@[simp] theorem mem_ones (x : Word) (i : Fin 64) : i ∈ ones x ↔ x.getLsbD i = true := by simp [ones]

theorem popCount_eq_card_ones (x : Word) : popCount x = (ones x).card := by
  have hrange : Finset.range 64 = (Finset.univ : Finset (Fin 64)).map Fin.valEmbedding := by
    rw [Fin.map_valEmbedding_univ, Nat.Iio_eq_range]
  calc popCount x = Nat.count (fun i => x.getLsbD i = true) 64 := by
        simp [popCount, bitIndices, Nat.count, List.countP_eq_length_filter]
    _ = ((Finset.range 64).filter (fun i => x.getLsbD i = true)).card := Nat.count_eq_card_filter_range _ _
    _ = (ones x).card := by
        rw [hrange, Finset.filter_map, Finset.card_map]
        rfl

/-- At most one index is counted when no two different ones hold a 1. -/
theorem popCount_le_one_iff (x : Word) :
    popCount x ≤ 1 ↔ ∀ i j, x.getLsbD i = true → x.getLsbD j = true → i = j := by
  rw [popCount_eq_card_ones, Finset.card_le_one]
  constructor
  · intro h i j hi hj
    exact congrArg Fin.val (h ⟨i, BitVec.lt_of_getLsbD hi⟩ ((mem_ones _ _).mpr hi) ⟨j, BitVec.lt_of_getLsbD hj⟩
      ((mem_ones _ _).mpr hj))
  · intro h i hi j hj
    exact Fin.ext (h i j ((mem_ones _ _).mp hi) ((mem_ones _ _).mp hj))

theorem popCount_pos {x : Word} {i : Nat} (hi : x.getLsbD i = true) : 0 < popCount x := by
  rw [popCount_eq_card_ones]
  exact Finset.card_pos.mpr ⟨⟨i, BitVec.lt_of_getLsbD hi⟩, (mem_ones _ _).mpr hi⟩

/-- Settles O30: the model counts the members of the set of the statement. -/
theorem popcntCountsOnes : Obligations.PopcntCountsOnes := by
  refine ⟨issuedAs_build .popcnt, fun s x => ?_⟩
  rw [exec_popcnt, popCount_eq_card_ones]
  rfl

/-! ## The highest and the lowest 1 (O31, O32) -/

/-- A word whose every listed index holds a 0 is 0. -/
theorem eq_zero_of_forall_bitIndices {x : Word} (h : ∀ i ∈ bitIndices, ¬ x.getLsbD i = true) : x = 0 :=
  BitVec.eq_of_getLsbD_eq fun i hi => by
    simpa using h i (List.mem_range.mpr hi)

theorem leadingZeros_zero : leadingZeros 0 = 64 := by
  rw [leadingZeros, List.find?_eq_none.mpr fun _ _ => by simp]

theorem trailingZeros_zero : trailingZeros 0 = 64 := by
  rw [trailingZeros, List.find?_eq_none.mpr fun _ _ => by simp]

/-- The search from the top finds the highest index that holds a 1. -/
theorem leadingZeros_of_ne_zero {x : Word} (hx : x ≠ 0) :
    ∃ i, i < 64 ∧ x.getLsbD i = true ∧ (∀ j, i < j → x.getLsbD j = false) ∧ leadingZeros x = 63 - i := by
  unfold leadingZeros
  split
  next h => exact absurd (eq_zero_of_forall_bitIndices fun i hi => List.find?_eq_none.mp h i (List.mem_reverse.mpr hi)) hx
  next i h =>
    obtain ⟨hi, above, below, hsplit, habove⟩ := List.find?_eq_some_iff_append.mp h
    have hsorted : (above ++ i :: below).Pairwise (· > ·) := by
      rw [← hsplit]
      exact List.pairwise_reverse.mpr List.pairwise_lt_range
    obtain ⟨-, hrest, -⟩ := List.pairwise_append.mp hsorted
    refine ⟨i, BitVec.lt_of_getLsbD hi, hi, fun j hij => Bool.eq_false_iff.mpr fun hj => ?_, rfl⟩
    have hmem : j ∈ above ++ i :: below := by
      rw [← hsplit]
      exact List.mem_reverse.mpr (List.mem_range.mpr (BitVec.lt_of_getLsbD hj))
    rcases List.mem_append.mp hmem with ha | hb
    · exact absurd hj (by simpa using habove j ha)
    · rcases List.mem_cons.mp hb with rfl | hb
      · exact Nat.lt_irrefl j hij
      · exact Nat.lt_asymm hij (List.rel_of_pairwise_cons hrest hb)

/-- The search from the bottom finds the lowest index that holds a 1. -/
theorem trailingZeros_of_ne_zero {x : Word} (hx : x ≠ 0) :
    trailingZeros x < 64 ∧ x.getLsbD (trailingZeros x) = true ∧ ∀ j, j < trailingZeros x → x.getLsbD j = false := by
  unfold trailingZeros
  split
  next h => exact absurd (eq_zero_of_forall_bitIndices (List.find?_eq_none.mp h)) hx
  next i h =>
    obtain ⟨hi, _, hlow⟩ := List.find?_range_eq_some.mp h
    exact ⟨BitVec.lt_of_getLsbD hi, hi, fun j hj => by simpa using hlow j hj⟩

/-- Settles O31: the search from the top answers the highest 1. -/
theorem clzCountsLeadingZeros : Obligations.ClzCountsLeadingZeros := by
  refine ⟨issuedAs_build .clz, fun s x => ⟨?zero, fun hx => ?nonzero⟩⟩
  case zero =>
    rintro rfl
    rw [exec_clz, leadingZeros_zero]
    rfl
  case nonzero =>
    obtain ⟨i, hlt, hi, habove, hlz⟩ := leadingZeros_of_ne_zero hx
    exact ⟨i, hlt, hi, habove, by rw [exec_clz, hlz]⟩

/-- Settles O32: the search from the bottom answers the lowest 1. -/
theorem ctzCountsTrailingZeros : Obligations.CtzCountsTrailingZeros := by
  refine ⟨issuedAs_build .ctz, fun s x => ⟨?zero, fun hx => ?nonzero⟩⟩
  case zero =>
    rintro rfl
    rw [exec_ctz, trailingZeros_zero]
    rfl
  case nonzero =>
    obtain ⟨hlt, hi, hbelow⟩ := trailingZeros_of_ne_zero hx
    exact ⟨_, hlt, hi, hbelow, exec_ctz s x⟩

/-! ## The next power of two (O33) -/

/-- The operands NLPO2 answers are the numbers below 2^30 (R123). -/
theorem nextPowerDefined_iff (x : BitVec 32) : nextPowerDefined x = true ↔ 0 ≤ x.toInt ∧ x.toInt < 2 ^ 30 := by
  simp [nextPowerDefined]

theorem toInt_eq_toNat_of_nonneg {x : BitVec 32} (h : 0 ≤ x.toInt) : x.toInt = x.toNat := by
  rw [BitVec.toInt_eq_toNat_cond] at h ⊢
  split at h
  next hx => exact if_pos hx
  next => omega

/-- The least exponent whose power is above a number is its bit length. -/
theorem nextPower_eq {x : BitVec 32} (hx : x.toNat < 2 ^ 30) : nextPower x = BitVec.ofNat 64 (2 ^ bitlength x.toNat) := by
  have hfind : (List.range 31).find? (fun k => decide (x.toNat < 2 ^ k)) = some (bitlength x.toNat) := by
    refine List.find?_range_eq_some.mpr ⟨?above, ?bound, fun j hj => ?least⟩
    case above => exact decide_eq_true ((bitlength_le_iff _ _).mp le_rfl)
    case bound => exact List.mem_range.mpr (Nat.lt_succ_of_le ((bitlength_le_iff _ _).mpr hx))
    case least => simpa using mt (bitlength_le_iff _ _).mpr (Nat.not_le.mpr hj)
  rw [nextPower, hfind]

theorem toNat_nextPower {x : BitVec 32} (hx : x.toNat < 2 ^ 30) : (nextPower x).toNat = 2 ^ bitlength x.toNat := by
  have hlt : 2 ^ bitlength x.toNat < 2 ^ 64 :=
    Nat.pow_lt_pow_right (by decide) (Nat.lt_of_le_of_lt ((bitlength_le_iff _ _).mpr hx) (by decide))
  rw [nextPower_eq hx, BitVec.toNat_ofNat, Nat.mod_eq_of_lt hlt]

/-- Settles O33: the bit length of the operand is the exponent. -/
theorem nlpo2IsTheNextPower : Obligations.Nlpo2IsTheNextPower := by
  refine ⟨issuedAs_build .nlpo2, fun s x => ⟨fun hout => ?range, fun h0 h30 => ?power⟩⟩
  case range =>
    have hdef : ¬ nextPowerDefined x = true := by
      rw [nextPowerDefined_iff]
      omega
    exact exec_nlpo2_of_not_defined s hdef
  case power =>
    have hnat := toInt_eq_toNat_of_nonneg h0
    have hlt (k : Nat) : x.toInt < 2 ^ k ↔ bitlength x.toNat ≤ k := by
      rw [hnat, bitlength_le_iff]
      exact_mod_cast Iff.rfl
    refine ⟨bitlength x.toNat, (hlt _).mpr le_rfl, fun j => (hlt j).mp, ?_⟩
    rw [exec_nlpo2_of_defined s ((nextPowerDefined_iff x).mpr ⟨h0, h30⟩), nextPower_eq (by omega)]

/-! ## The test for one bit (O34) -/

/-- Taking 1 away clears the lowest 1 and sets the zeros below it, so nothing is left in common when there is no other. -/
theorem isPowerOfTwo_iff_toNat {x : Word} (hx : x ≠ 0) : isPowerOfTwo x = true ↔ x.toNat.isPowerOfTwo := by
  have hpos : x.toNat ≠ 0 := fun h => hx (BitVec.eq_of_toNat_eq h)
  have hsub : (x - 1).toNat = x.toNat - 1 := BitVec.toNat_sub_of_le (Nat.one_le_iff_ne_zero.mpr hpos)
  rw [isPowerOfTwo, beq_iff_eq, ← BitVec.toNat_inj, BitVec.toNat_and, hsub]
  exact Nat.and_sub_one_eq_zero_iff_isPowerOfTwo hpos

/-- A word other than 0 is a power of two when it has one 1. -/
theorem toNat_isPowerOfTwo_iff {x : Word} (hx : x ≠ 0) :
    x.toNat.isPowerOfTwo ↔ ∀ i j, x.getLsbD i = true → x.getLsbD j = true → i = j := by
  constructor
  · rintro ⟨k, hk⟩ i j hi hj
    have hbit {i : Nat} (hi : x.getLsbD i = true) : k = i := by
      simpa [BitVec.getLsbD, hk, Nat.testBit_two_pow] using hi
    exact (hbit hi).symm.trans (hbit hj)
  · intro h
    obtain ⟨_, hi, _⟩ := trailingZeros_of_ne_zero hx
    refine ⟨trailingZeros x, Nat.eq_of_testBit_eq fun j => ?_⟩
    rw [Nat.testBit_two_pow, Bool.eq_iff_iff, decide_eq_true_iff]
    exact ⟨h _ _ hi, fun hj => hj ▸ hi⟩

theorem isPowerOfTwo_iff_popCount (x : Word) : isPowerOfTwo x = true ↔ popCount x ≤ 1 := by
  rw [popCount_le_one_iff]
  by_cases hx : x = 0
  · subst hx
    simp [isPowerOfTwo]
  · exact (isPowerOfTwo_iff_toNat hx).trans (toNat_isPowerOfTwo_iff hx)

/-- Settles O34: clearing the lowest 1 leaves 0 when there is no other. -/
theorem ispow2TestsForOneBit : Obligations.Ispow2TestsForOneBit := by
  refine ⟨issuedAs_build .ispow2, fun s x => ?_⟩
  simp only [exec_ispow2, isPowerOfTwo_iff_popCount, popCount_eq_card_ones]
  rfl

/-! ## Byte reversal (O35, O36) -/

/-- The word `y` is made of the `n` bytes `g 0`, `g 1`, …, joined in this order, `g 0` on top. -/
def Joins (n : Nat) (g : Nat → Byte) {w : Nat} (y : BitVec w) : Prop :=
  ∀ j, j < n → y.extractLsb' (8 * j) 8 = g (n - 1 - j)

theorem joins_one (g : Nat → Byte) : Joins 1 g (g 0) := by
  intro j hj
  obtain rfl : j = 0 := by omega
  exact BitVec.extractLsb'_eq_self

/-- A byte joined on below moves the others up. -/
theorem Joins.append {n w : Nat} {g : Nat → Byte} {y : BitVec w} (h : Joins n g y) : Joins (n + 1) g (y ++ g n)
  | 0, _ => BitVec.extractLsb'_append_eq_right
  | j + 1, hj => by
    rw [BitVec.extractLsb'_append_eq_of_le (by omega), Nat.mul_succ, Nat.add_sub_cancel, h j (by omega)]
    congr 1
    omega

/-- A function on words of `n` bytes that puts them in reverse order: the lowest byte goes on top. -/
def ReversesBytes (n : Nat) {w : Nat} (f : BitVec w → BitVec w) : Prop :=
  ∀ x, Joins n (fun k => x.extractLsb' (8 * k) 8) (f x)

theorem reversesBytes_byteSwap32 : ReversesBytes 4 byteSwap32 :=
  fun x => (joins_one fun k => x.extractLsb' (8 * k) 8).append.append.append

theorem reversesBytes_byteSwap64 : ReversesBytes 8 byteSwap64 :=
  fun x => (joins_one fun k => x.extractLsb' (8 * k) 8).append.append.append.append.append.append.append

/-- Settles O35: `byteSwap32` reverses the bytes. -/
theorem bswap32ReversesBytes : Obligations.Bswap32ReversesBytes :=
  ⟨issuedAs_build .bswap32, fun s x => ⟨byteSwap32 x, exec_bswap32 s x, reversesBytes_byteSwap32 x⟩⟩

/-- Settles O36: `byteSwap64` reverses the bytes. -/
theorem bswap64ReversesBytes : Obligations.Bswap64ReversesBytes :=
  ⟨issuedAs_build .bswap64, fun s x => ⟨byteSwap64 x, exec_bswap64 s x, reversesBytes_byteSwap64 x⟩⟩

/-! ## The laws (O37) -/

/-- The highest index that holds a 1 gives the bit length. -/
theorem bitlength_of_highest {x : Word} {i : Nat} (hi : x.getLsbD i = true) (habove : ∀ j, i < j → x.getLsbD j = false) :
    bitlength x.toNat = i + 1 := by
  have hlow : ¬ bitlength x.toNat ≤ i := by
    rw [bitlength_le_iff]
    exact Nat.not_lt.mpr (Nat.ge_two_pow_of_testBit hi)
  have hup : bitlength x.toNat ≤ i + 1 := (bitlength_le_iff _ _).mpr (Nat.lt_pow_two_of_testBit _ habove)
  omega

theorem leadingZeros_add_bitlength (x : Word) : leadingZeros x + bitlength x.toNat = 64 := by
  by_cases hx : x = 0
  · subst hx
    rw [leadingZeros_zero]
    rfl
  · obtain ⟨i, hlt, hi, habove, hlz⟩ := leadingZeros_of_ne_zero hx
    rw [hlz, bitlength_of_highest hi habove]
    omega

/-- The zeros above the highest 1 and below the lowest, and one 1, fill the word when these two are the same 1. -/
theorem leadingZeros_add_trailingZeros {x : Word} (hx : x ≠ 0) : leadingZeros x + trailingZeros x + 1 ≤ 64 ∧
    (leadingZeros x + trailingZeros x + 1 = 64 ↔ popCount x = 1) := by
  obtain ⟨i, hlt, hi, habove, hlz⟩ := leadingZeros_of_ne_zero hx
  obtain ⟨-, hlow, hbelow⟩ := trailingZeros_of_ne_zero hx
  have hle_highest {j : Nat} (hj : x.getLsbD j = true) : j ≤ i :=
    Nat.not_lt.mp fun h => Bool.false_ne_true ((habove j h).symm.trans hj)
  have hlowest_le {j : Nat} (hj : x.getLsbD j = true) : trailingZeros x ≤ j :=
    Nat.not_lt.mp fun h => Bool.false_ne_true ((hbelow j h).symm.trans hj)
  have hle := hle_highest hlow
  have hsame : popCount x = 1 ↔ trailingZeros x = i := by
    have hpos := popCount_pos hi
    rw [show popCount x = 1 ↔ popCount x ≤ 1 by omega, popCount_le_one_iff]
    refine ⟨fun h => h _ _ hlow hi, fun h j k hj hk => ?_⟩
    have := hle_highest hj
    have := hle_highest hk
    have := hlowest_le hj
    have := hlowest_le hk
    omega
  rw [hsame, hlz]
  omega

/-- A power of two is a number with one bit, above the operand, and at most twice a positive one. -/
theorem nextPower_laws {x : BitVec 32} (hx : x.toNat < 2 ^ 30) :
    isPowerOfTwo (nextPower x) = true ∧ nextPower x ≠ 0 ∧ x.toNat < (nextPower x).toNat ∧
      (1 ≤ x.toNat → (nextPower x).toNat ≤ 2 * x.toNat) ∧ (x = 0 → nextPower x = 1) := by
  have hnat := toNat_nextPower hx
  have hne : nextPower x ≠ 0 := fun h => absurd (hnat.symm.trans (congrArg BitVec.toNat h)) (Nat.two_pow_pos _).ne'
  refine ⟨?onebit, hne, ?above, fun h1 => ?twice, ?zero⟩
  case onebit =>
    rw [isPowerOfTwo_iff_toNat hne, hnat]
    exact ⟨_, rfl⟩
  case above =>
    rw [hnat]
    exact (bitlength_le_iff _ _).mp le_rfl
  case twice =>
    obtain ⟨k, hk⟩ : ∃ k, bitlength x.toNat = k + 1 := ⟨x.toNat.log2, if_neg (by omega)⟩
    have hlow : ¬ x.toNat < 2 ^ k := mt (bitlength_le_iff _ _).mpr (by omega)
    rw [hnat, hk, Nat.pow_succ]
    omega
  case zero =>
    rintro rfl
    rfl

/-- Words with the same bytes are equal. -/
theorem eq_of_bytes {n w : Nat} (hw : w = 8 * n) {x y : BitVec w}
    (h : ∀ j, j < n → x.extractLsb' (8 * j) 8 = y.extractLsb' (8 * j) 8) : x = y := by
  refine BitVec.eq_of_getLsbD_eq fun i hi => ?_
  have hbit := congrArg (fun b => b.getLsbD (i % 8)) (h (i / 8) (by omega))
  simpa [BitVec.getLsbD_extractLsb', Nat.mod_lt, Nat.div_add_mod] using hbit

/-- Reversing a word's bytes twice puts each byte back in its place. -/
theorem ReversesBytes.involutive {n w : Nat} (hw : w = 8 * n) {f : BitVec w → BitVec w} (hf : ReversesBytes n f) :
    Function.Involutive f := by
  refine fun x => eq_of_bytes hw fun j hj => ?_
  have hback : n - 1 - (n - 1 - j) = j := by omega
  calc (f (f x)).extractLsb' (8 * j) 8 = (f x).extractLsb' (8 * (n - 1 - j)) 8 := hf (f x) j hj
    _ = x.extractLsb' (8 * (n - 1 - (n - 1 - j))) 8 := hf x _ (by omega)
    _ = x.extractLsb' (8 * j) 8 := by rw [hback]

/-- Settles O37: each law is a fact about the highest and the lowest 1, the bit length, or the order of the bytes. -/
theorem primitivesObeyTheLaws : Obligations.PrimitivesObeyTheLaws :=
  ⟨leadingZeros_add_bitlength, fun _ => leadingZeros_add_trailingZeros, isPowerOfTwo_iff_popCount, fun _ => nextPower_laws,
    reversesBytes_byteSwap32.involutive rfl, reversesBytes_byteSwap64.involutive rfl⟩

end Sys2Proof.Machine

/-! SUPPORT. The sketch commands (spec rules R130 to R136): the order of their checks, what each does where no check fails, and the
merge as a commutative, associative and idempotent operation on register arrays and on the sketches of one `B`. -/

namespace Sys2Proof.Machine

/-! ## The faults of a sketch command, and the slot checks (R135) -/

section
variable (s : State)

theorem raise_sketch_index :
    raise .sketch .index s = .next { s with fsr := s.fsr ||| 0b1000000, resp := some ⟨6, 0⟩ } := rfl

theorem raise_sketch_state :
    raise .sketch .state s = .next { s with fsr := s.fsr ||| 0b1000, resp := some ⟨3, 0⟩ } := rfl

end

section
variable {s : State} {i : Nat} (body : Sketch → Result)

theorem withSketch_of_absent (h : s.h.length ≤ i) :
    withSketch i s body = .next { s with fsr := s.fsr ||| 0b1000000, resp := some ⟨6, 0⟩ } := by
  simp only [withSketch, List.getElem?_eq_none h, raise_sketch_index]

variable {k : Sketch} (hk : s.h[i]? = some k)
include hk

theorem withSketch_of_invalid (hv : k.valid = false) :
    withSketch i s body = .next { s with fsr := s.fsr ||| 0b1000, resp := some ⟨3, 0⟩ } := by
  simp [withSketch, hk, hv, raise_sketch_state]

theorem withSketch_of_valid (hv : k.valid = true) : withSketch i s body = body k := by
  simp [withSketch, hk, hv]

end

/-! ## HNEW (O38) -/

section
variable {s : State} {i b : Nat}

theorem exec_hnew_of_absent (h : s.h.length ≤ i) :
    exec (.hnew i b) s = .next { s with fsr := s.fsr ||| 0b1000000, resp := some ⟨6, 0⟩ } :=
  if_pos h

/-- RANGE sets `FSR[7]` and leaves the slot as it was (R130). -/
theorem exec_hnew_of_range (h : i < s.h.length) (hb : b < 4 ∨ 14 < b) :
    exec (.hnew i b) s = .next { s with fsr := s.fsr ||| 0b10000000, resp := some ⟨7, 0⟩ } :=
  (if_neg (Nat.not_le.mpr h)).trans (if_pos hb)

theorem exec_hnew_of_legal (h : i < s.h.length) (hb : ¬ (b < 4 ∨ 14 < b)) :
    exec (.hnew i b) s =
      .next { s with h := s.h.set i { valid := true, b := BitVec.ofNat 4 b, reg := [] }, resp := some ⟨0, 0⟩ } :=
  (if_neg (Nat.not_le.mpr h)).trans (if_neg hb)

end

/-- Settles O38: the slot is checked before `bValue`, a legal `bValue` fits the four bits of `B`, and the empty array reads 0. -/
theorem hnewMakesAZeroedSketch : Obligations.HnewMakesAZeroedSketch := by
  refine ⟨issuedAs_build .hnew, fun s i b => ⟨exec_hnew_of_absent, exec_hnew_of_range, fun h hlo hhi => ?_⟩⟩
  have hfits : b < 2 ^ 4 := by omega
  exact ⟨_, exec_hnew_of_legal h (by omega), rfl, Nat.mod_eq_of_lt hfits, Memory.read_nil⟩

/-! ## HGET, HSET and HRST (O39, O40, O41) -/

section
variable {s : State} {i : Nat} {v : Byte} {idx : Word} {k : Sketch} (hk : s.h[i]? = some k) (hv : k.valid = true)
include hk hv

theorem exec_hget_of_index (h : k.size ≤ idx.toNat) :
    exec (.hget i idx) s = .next { s with fsr := s.fsr ||| 0b1000000, resp := some ⟨6, 0⟩ } :=
  (withSketch_of_valid _ hk hv).trans (if_pos h)

theorem exec_hget_of_legal (h : idx.toNat < k.size) :
    exec (.hget i idx) s = .next { s with resp := some ⟨0, (k.reg.read idx.toNat).zeroExtend 64⟩ } :=
  (withSketch_of_valid _ hk hv).trans (if_neg (Nat.not_le.mpr h))

theorem exec_hset_of_index (h : k.size ≤ idx.toNat) :
    exec (.hset i v idx) s = .next { s with fsr := s.fsr ||| 0b1000000, resp := some ⟨6, 0⟩ } :=
  (withSketch_of_valid _ hk hv).trans (if_pos h)

theorem exec_hset_of_legal (h : idx.toNat < k.size) :
    exec (.hset i v idx) s =
      .next { s with h := s.h.set i { k with reg := k.reg.write idx.toNat v }, resp := some ⟨0, 0⟩ } :=
  (withSketch_of_valid _ hk hv).trans (if_neg (Nat.not_le.mpr h))

theorem exec_hrst_of_valid :
    exec (.hrst i) s = .next { s with h := s.h.set i { k with reg := [] }, resp := some ⟨0, 0⟩ } :=
  withSketch_of_valid _ hk hv

end

/-- Settles O39: the slot checks, then the bucket index, then the register in the low byte of the answer. -/
theorem hgetReadsTheRegister : Obligations.HgetReadsTheRegister := by
  refine ⟨issuedAs_build .hget, fun s i idx => ⟨withSketch_of_absent _, fun k hk =>
    ⟨withSketch_of_invalid _ hk, exec_hget_of_index hk, fun hv hidx => ?_⟩⟩⟩
  rw [exec_hget_of_legal hk hv hidx, zeroExtend_eq_ofNat rfl]

/-- Settles O40: the checks of HGET, then a write, which keeps the canonical form and every other register. -/
theorem hsetWritesTheRegister : Obligations.HsetWritesTheRegister := by
  refine ⟨issuedAs_build .hset, fun s i v idx => ⟨withSketch_of_absent _, fun k hk =>
    ⟨withSketch_of_invalid _ hk, exec_hset_of_index hk, fun hv hwf hidx => ?_⟩⟩⟩
  exact ⟨_, exec_hset_of_legal hk hv hidx, Memory.wf_write _ _ _ hwf, Memory.read_write_same _ _ _ hwf,
    fun j hj => Memory.read_write_other _ _ _ _ hj⟩

/-- Settles O41: the slot checks, then the empty array in place of the old one. -/
theorem hrstZeroesTheRegisters : Obligations.HrstZeroesTheRegisters :=
  ⟨issuedAs_build .hrst, fun _ _ => ⟨withSketch_of_absent _, fun _ hk =>
    ⟨withSketch_of_invalid _ hk, fun hv => ⟨_, exec_hrst_of_valid hk hv, Memory.read_nil⟩⟩⟩⟩

/-! ## HAGG (O42) -/

/-- What a merge that goes through leaves in the destination (R134). -/
def Sketch.merge (x y : Sketch) : Sketch := { x with reg := x.reg.merge y.reg }

section
variable {s : State} {d i : Nat}

theorem exec_hagg_of_absent (h : s.h.length ≤ d ∨ s.h.length ≤ i) :
    exec (.hagg d i) s = .next { s with fsr := s.fsr ||| 0b1000000, resp := some ⟨6, 0⟩ } := by
  rw [← raise_sketch_index]
  rcases h with hd | hi
  · simp only [exec, execHagg, List.getElem?_eq_none hd]
  · cases hd : s.h[d]? <;> simp only [exec, execHagg, List.getElem?_eq_none hi, hd]

variable {x y : Sketch} (hd : s.h[d]? = some x) (hi : s.h[i]? = some y)
include hd hi

theorem exec_hagg_of_invalid (hv : x.valid = false ∨ y.valid = false) :
    exec (.hagg d i) s = .next { s with fsr := s.fsr ||| 0b1000, resp := some ⟨3, 0⟩ } := by
  rw [← raise_sketch_state]
  simp only [exec, execHagg, hd, hi]
  rcases hv with hx | hy
  · exact if_pos hx
  · rw [if_pos hy, ite_self]

theorem exec_hagg_of_same_b (hx : x.valid = true) (hy : y.valid = true) (hb : x.b = y.b) :
    exec (.hagg d i) s = .next { s with h := s.h.set d (x.merge y), resp := some ⟨0, 0⟩ } := by
  simp only [exec, execHagg, hd, hi]
  rw [if_neg (by simp [hx]), if_neg (by simp [hy]), if_neg (not_not_intro hb)]
  rfl

end

/-- Settles O42: both slot numbers, both `VALID` bits, then `B`; a merge that goes through takes the maximum in every lane. -/
theorem haggMergesByMaximum : Obligations.HaggMergesByMaximum := by
  refine ⟨issuedAs_build .hagg, fun s d i => ⟨exec_hagg_of_absent, fun x y hd hi =>
    ⟨exec_hagg_of_invalid hd hi, fun hx hy hb => ?mismatch, fun hx hy hb hwx hwy => ?merge⟩⟩⟩
  case mismatch => exact Mismatch.exec_eq ⟨d, i, x, y, rfl, hd, hi, hx, hy, hb⟩
  case merge =>
    refine ⟨_, exec_hagg_of_same_b hd hi hx hy hb, Memory.wf_merge _ _ hwx, fun j => ?_⟩
    rw [Memory.read_merge _ _ _ hwx hwy, maxByte_toNat]

/-! ## The laws of the merge (R136) -/

theorem maxByte_self (x : Byte) : maxByte x x = x := ite_self x

theorem maxByte_comm (x y : Byte) : maxByte x y = maxByte y x :=
  BitVec.eq_of_toNat_eq (by rw [maxByte_toNat, maxByte_toNat, Nat.max_comm])

theorem maxByte_assoc (x y z : Byte) : maxByte (maxByte x y) z = maxByte x (maxByte y z) :=
  BitVec.eq_of_toNat_eq (by simp only [maxByte_toNat, Nat.max_assoc])

section
variable {x y z : Memory} (hx : Memory.wf x) (hy : Memory.wf y) (hz : Memory.wf z)
include hx

theorem Memory.merge_self : x.merge x = x := by
  refine Memory.eq_of_read _ _ (Memory.wf_merge _ _ hx) hx fun a => ?_
  rw [Memory.read_merge _ _ _ hx hx, maxByte_self]

include hy

theorem Memory.merge_comm : x.merge y = y.merge x := by
  refine Memory.eq_of_read _ _ (Memory.wf_merge _ _ hx) (Memory.wf_merge _ _ hy) fun a => ?_
  rw [Memory.read_merge _ _ _ hx hy, Memory.read_merge _ _ _ hy hx, maxByte_comm]

include hz

theorem Memory.merge_assoc : (x.merge y).merge z = x.merge (y.merge z) := by
  have hxy := Memory.wf_merge y x hx
  have hyz := Memory.wf_merge z y hy
  refine Memory.eq_of_read _ _ (Memory.wf_merge _ _ hxy) (Memory.wf_merge _ _ hx) fun a => ?_
  calc ((x.merge y).merge z).read a = maxByte (maxByte (x.read a) (y.read a)) (z.read a) := by
        rw [Memory.read_merge _ _ _ hxy hz, Memory.read_merge _ _ _ hx hy]
    _ = maxByte (x.read a) (maxByte (y.read a) (z.read a)) := maxByte_assoc _ _ _
    _ = (x.merge (y.merge z)).read a := by
        rw [Memory.read_merge _ _ _ hx hyz, Memory.read_merge _ _ _ hy hz]

end

/-- Settles O45: lane by lane, the maximum is associative, and canonical arrays that read alike are equal. -/
theorem mergeIsAssociative : Obligations.MergeIsAssociative := fun _ _ _ => Memory.merge_assoc

/-! ## The sketches of one `B` -/

/-- A valid sketch of the given `B` with canonical registers. -/
structure Sketch.OfB (b : BitVec 4) (k : Sketch) : Prop where
  valid : k.valid = true
  b_eq : k.b = b
  wf : Memory.wf k.reg

theorem Sketch.Inv.ofB {k : Sketch} (h : k.Inv) (hv : k.valid = true) : k.OfB k.b := ⟨hv, rfl, h.1⟩

/-- The premises of O43 and O44 about the two sketches of a merge. -/
theorem State.Inv.ofB {s : State} (h : s.Inv) {d i : Nat} {x y : Sketch} (hd : s.h[d]? = some x) (hi : s.h[i]? = some y)
    (hx : x.valid = true) (hy : y.valid = true) (hb : x.b = y.b) : x.OfB y.b ∧ y.OfB y.b :=
  ⟨hb ▸ (h.slot hd).ofB hx, (h.slot hi).ofB hy⟩

section
variable {b : BitVec 4} {x y : Sketch}

/-- Sketches of one `B` differ in their registers only. -/
theorem Sketch.OfB.ext (hx : x.OfB b) (hy : y.OfB b) (h : x.reg = y.reg) : x = y := by
  obtain ⟨hvx, hbx, _⟩ := hx
  obtain ⟨hvy, hby, _⟩ := hy
  cases x
  cases y
  simp_all

theorem Sketch.OfB.merge (hx : x.OfB b) (y : Sketch) : (x.merge y).OfB b :=
  ⟨hx.valid, hx.b_eq, Memory.wf_merge _ _ hx.wf⟩

theorem Sketch.OfB.merge_self (hx : x.OfB b) : x.merge x = x :=
  (hx.merge x).ext hx (Memory.merge_self hx.wf)

theorem Sketch.OfB.merge_comm (hx : x.OfB b) (hy : y.OfB b) : x.merge y = y.merge x :=
  (hx.merge y).ext (hy.merge x) (Memory.merge_comm hx.wf hy.wf)

/-- The source of a merge is absorbed in its result. -/
theorem Sketch.OfB.merge_merge_right (hx : x.OfB b) (hy : y.OfB b) : (x.merge y).merge y = x.merge y := by
  refine ((hx.merge y).merge y).ext (hx.merge y) ?_
  calc (x.reg.merge y.reg).merge y.reg = x.reg.merge (y.reg.merge y.reg) := Memory.merge_assoc hx.wf hy.wf hy.wf
    _ = x.reg.merge y.reg := by rw [Memory.merge_self hy.wf]

/-- So is its old destination. -/
theorem Sketch.OfB.merge_merge_left (hx : x.OfB b) (hy : y.OfB b) : (x.merge y).merge x = x.merge y := by
  rw [hx.merge_comm hy, hy.merge_merge_right hx]

theorem Sketch.OfB.exec_hagg (hx : x.OfB b) (hy : y.OfB b) {s : State} {d i : Nat} (hd : s.h[d]? = some x)
    (hi : s.h[i]? = some y) :
    exec (.hagg d i) s = .next { s with h := s.h.set d (x.merge y), resp := some ⟨0, 0⟩ } :=
  exec_hagg_of_same_b hd hi hx.valid hy.valid (hx.b_eq.trans hy.b_eq.symm)

/-- Whichever of its operands a merge has replaced by its result, merging them the other way round gives the same result. -/
theorem Sketch.OfB.merge_swap (hx : x.OfB b) (hy : y.OfB b) {p q : Sketch} (hp : p = x.merge y ∨ p = y)
    (hq : q = x.merge y ∨ q = x) : p.merge q = x.merge y := by
  have hm := hx.merge y
  rcases hp with rfl | rfl <;> rcases hq with rfl | rfl
  · exact hm.merge_self
  · exact hx.merge_merge_left hy
  · rw [hy.merge_comm hm, hx.merge_merge_right hy]
  · exact hy.merge_comm hx

end

/-! ## Merging back, and merging again (O43, O44) -/

/-- A slot that was there holds what is written to it. -/
theorem getElem?_set_of_some {l : List Sketch} {i : Nat} {y : Sketch} (h : l[i]? = some y) (m : Sketch) :
    (l.set i m)[i]? = some m := by
  rw [List.getElem?_set_self', h]
  rfl

/-- A slot that may be the written one holds the written sketch or what it held. -/
theorem getElem?_set_cases {l : List Sketch} {i : Nat} {y : Sketch} (h : l[i]? = some y) (d : Nat) (m : Sketch) :
    ∃ p, (l.set d m)[i]? = some p ∧ (p = m ∨ p = y) := by
  by_cases hdi : d = i
  · subst hdi
    exact ⟨m, getElem?_set_of_some h m, .inl rfl⟩
  · exact ⟨y, by rw [List.getElem?_set_ne hdi, h], .inr rfl⟩

/-- Settles O43: the two slots of the second merge hold what they held or the first result, and either way it gives that result. -/
theorem mergeIsCommutative : Obligations.MergeIsCommutative := by
  intro s a a' c c' x y hs ha ha' hc hc' hvx hvy hb
  obtain ⟨hx, hy⟩ := hs.ofB ha hc hvx hvy hb
  have hm := hx.merge y
  obtain ⟨p, hpc, hp⟩ := getElem?_set_cases hc' a (x.merge y)
  obtain ⟨q, hqa, hq⟩ := getElem?_set_cases ha' a (x.merge y)
  have hpb : p.OfB y.b := by rcases hp with rfl | rfl <;> assumption
  have hqb : q.OfB y.b := by rcases hq with rfl | rfl <;> assumption
  refine ⟨_, _, p.merge q, hx.exec_hagg hy ha hc, hpb.exec_hagg hqb hpc hqa, rfl, rfl, ?_, getElem?_set_of_some hpc _⟩
  rw [hx.merge_swap hy hp hq]
  obtain ⟨k, hk, rfl | rfl⟩ := getElem?_set_cases (getElem?_set_of_some ha (x.merge y)) c' (x.merge y) <;> exact hk

/-- Settles O44: the source, or the result where the source is the destination, is absorbed in the result. -/
theorem mergeIsIdempotent : Obligations.MergeIsIdempotent := by
  intro s d i x y hs hd hi hvx hvy hb
  obtain ⟨hx, hy⟩ := hs.ofB hd hi hvx hvy hb
  have hm := hx.merge y
  have hfirst := hx.exec_hagg hy hd hi
  constructor
  · rintro rfl
    obtain ⟨_, rfl⟩ := List.getElem?_eq_some_iff.mp hd
    rw [hfirst, hx.merge_self, List.set_getElem_self]
  · obtain ⟨q, hqi, hq⟩ := getElem?_set_cases hi d (x.merge y)
    have hqb : q.OfB y.b := by rcases hq with rfl | rfl <;> assumption
    have habsorb : (x.merge y).merge q = x.merge y := by
      rcases hq with rfl | rfl
      · exact hm.merge_self
      · exact hx.merge_merge_right hy
    refine ⟨_, hfirst, rfl, ?_⟩
    rw [hm.exec_hagg hqb (getElem?_set_of_some hd _) hqi, habsorb, List.set_set]

end Sys2Proof.Machine

/-! SUPPORT. Faults (spec rules R77, R140 to R145): a command word that is answered with a fault has taken the one fault entry with a
code of the table, and a state and operands that provoke each entry of the table. -/

namespace Sys2Proof.Machine

/-! ## The fault of a command word (O46) -/

theorem unitOfWord_ok {cmd : CmdWord} {data : Word} {i : Instr} (h : decode cmd data = .ok i) :
    unitOfWord cmd data = unitOf i.op := by
  simp only [unitOfWord, h]

theorem unitOfWord_error {cmd : CmdWord} {data : Word} {e : DecodeError} (h : decode cmd data = .error e) :
    unitOfWord cmd data = .system := by
  simp only [unitOfWord, h]

/-- A code the table allows a word: ILLEGAL for an illegal word, else an entry of its command's row (R77, R141). -/
def Allowed (cmd : CmdWord) (data : Word) (c : FaultCode) : Prop :=
  (c = .illegal ∧ ∃ e, decode cmd data = .error e) ∨ ∃ i, decode cmd data = .ok i ∧ c ∈ faultsOf i.op

/-- A command that is answered with a code other than 0 has faulted (R75). -/
theorem faults_of_status_ne_zero {i : Instr} {s t : State} {p : Response} (h : exec i s = .next t) (hp : t.resp = some p)
    (h0 : p.status ≠ 0) : Faults i s t := by
  rcases exec_cases h with hf | ⟨rd, u, rfl, _⟩
  · exact hf
  · obtain rfl := Option.some.inj hp
    exact absurd rfl h0

/-- A word that is answered with a code other than 0 has entered a fault the table allows it (R141, R144). -/
theorem runCommand_fault {cmd : CmdWord} {data : Word} {s t : State} {p : Response} (h : runCommand cmd data s = .next t)
    (hp : t.resp = some p) (h0 : p.status ≠ 0) :
    ∃ c, t = takeFault (unitOfWord cmd data) c s ∧ Allowed cmd data c := by
  cases hd : decode cmd data with
  | ok i =>
    rw [runCommand_ok hd] at h
    obtain ⟨c, hc, rfl, _⟩ := faults_of_status_ne_zero h hp h0
    exact ⟨c, by rw [unitOfWord_ok hd], .inr ⟨i, hd, hc⟩⟩
  | error e =>
    rw [runCommand_error hd] at h
    exact ⟨.illegal, by rw [unitOfWord_error hd, (raise_eq_next _ _ _ _).mp h], .inl ⟨rfl, e, hd⟩⟩

/-- Settles O46: the fault entry writes `FSR`, the spoiled unit and the response, after the word has left the inputs. -/
theorem faultsArePrecise : Obligations.FaultsArePrecise := by
  intro s t cmd data rest p h hs hp h0
  rw [step_command h] at hs
  obtain ⟨c, rfl, _⟩ := runCommand_fault hs hp h0
  obtain rfl := Option.some.inj hp
  exact ⟨c, rfl, rfl⟩

/-! ## The table of faults (O47) -/

theorem FaultCode.code_injective (c c' : FaultCode) (h : c.code = c'.code) : c = c' := by
  revert h
  cases c <;> cases c' <;> decide

/-- The command raises the fault in some state. -/
def Raised (o : Op) (c : FaultCode) : Prop :=
  ∃ (i : Instr) (s t : State), i.op = o ∧ exec i s = .next t ∧ t.resp = some ⟨c.code, 0⟩

/-- Operands and a state that provoke a fault. -/
theorem Raised.of_build {o : Op} {c : FaultCode} (a : BitVec 8) (data : Word) (s : State)
    (h : exec (o.build a 0 0 data) s = raise (unitOf o) c s) : Raised o c :=
  ⟨_, s, _, o.op_build a 0 0 data, h, rfl⟩

/-- The reset state with an open writer, and an open reader at the start of a packet. -/
def openedOn (packet : List Byte) : State := (State.reset.setW openWriter).setR (openReader packet)

/-- No status register is at address 7 (R35). -/
theorem raised_illegal {o : Op} (h : .illegal ∈ faultsOf o) : Raised o .illegal := by
  cases o with
  | rdsr => exact .of_build 7 0 State.reset rfl
  | _ => exact absurd h (by decide)

/-- A field of 0 bits is too narrow for an open unit (R100, R110). -/
theorem raised_width {o : Op} (h : .width ∈ faultsOf o) : Raised o .width := by
  cases o with
  | wbits | rbits => exact .of_build 0 0 (openedOn []) rfl
  | _ => exact absurd h (by decide)

/-- After reset no writer and no reader is open and no slot holds a sketch (R160). -/
theorem raised_state {o : Op} (h : .state ∈ faultsOf o) : Raised o .state := by
  cases o with
  | wbits | wbit | wv64 | wv32 | walign | wflush | rbits | rv64 | rv32 | ralign | hget | hset | hrst | hagg =>
    exact .of_build 0 0 State.reset rfl
  | _ => exact absurd h (by decide)

/-- The empty packet has no bit to read (R52). -/
theorem raised_eos {o : Op} (h : .eos ∈ faultsOf o) : Raised o .eos := by
  cases o with
  | rbits | rv64 | rv32 => exact .of_build 1 0 (openedOn []) rfl
  | _ => exact absurd h (by decide)

/-- Ten bytes that all announce a further one are more than a varint of either width has (R112, R113). -/
theorem raised_varint {o : Op} (h : .varint ∈ faultsOf o) : Raised o .varint := by
  cases o with
  | rv64 | rv32 => exact .of_build 0 0 (openedOn (List.replicate 10 0x80)) rfl
  | _ => exact absurd h (by decide)

/-- The default build has no slot 4 (R5, R30). -/
theorem raised_index {o : Op} (h : .index ∈ faultsOf o) : Raised o .index := by
  cases o with
  | hnew | hget | hset | hrst | hagg => exact .of_build 4 0 State.reset rfl
  | _ => exact absurd h (by decide)

/-- NLPO2 has no answer for a negative operand, and a sketch no `bValue` 0 (R123, R130). -/
theorem raised_range {o : Op} (h : .range ∈ faultsOf o) : Raised o .range := by
  cases o with
  | nlpo2 | hnew => exact .of_build 0 0x80000000 State.reset rfl
  | _ => exact absurd h (by decide)

theorem raised_of_mem_faultsOf {o : Op} {c : FaultCode} (h : c ∈ faultsOf o) : Raised o c := by
  cases c with
  | illegal => exact raised_illegal h
  | width => exact raised_width h
  | state => exact raised_state h
  | eos => exact raised_eos h
  | varint => exact raised_varint h
  | index => exact raised_index h
  | range => exact raised_range h

/-- Settles O47: the code in the response is that of the fault entered, which the table allows, and each entry is provoked. -/
theorem faultTableIsExact : Obligations.FaultTableIsExact := by
  refine ⟨fun s t cmd data rest c h hs hp => ?_, fun o c => raised_of_mem_faultsOf⟩
  rw [step_command h] at hs
  obtain ⟨c', rfl, hc'⟩ := runCommand_fault hs hp c.code_ne_zero
  have hcode : c'.code = c.code := congrArg Response.status (Option.some.inj hp)
  obtain rfl := FaultCode.code_injective c' c hcode
  exact hc'

end Sys2Proof.Machine

/-! SUPPORT. Reset and the wait (spec rules R160, R171, R172): what the reset signal and SRST share, a step with no input pending,
and the reset state of any build. -/

namespace Sys2Proof.Machine

/-! ## The reset state (O8, O56) -/

/-- No slot of a build holds a sketch after reset. -/
theorem State.eq_reset_of_mem_resetFor {c : Config} {k : Sketch} (h : k ∈ (State.resetFor c).h) : k = Sketch.reset :=
  List.eq_of_mem_replicate h

/-- Settles O8: the units and flags stand in the definition of the reset state, and its slots are copies of the reset one. -/
theorem resetLeavesNoInstance : Obligations.ResetLeavesNoInstance := by
  refine ⟨rfl, rfl, rfl, rfl, List.length_replicate, fun k hk => ?_⟩
  obtain rfl := State.eq_reset_of_mem_resetFor hk
  exact ⟨rfl, rfl⟩

/-- The reset state of every build meets the invariant. -/
theorem State.resetFor_inv (c : Config) : (State.resetFor c).Inv where
  writer := Writer.reset_inv
  reader := Reader.reset_inv
  slots := fun k hk => by
    rw [State.eq_reset_of_mem_resetFor hk]
    exact Sketch.reset_inv
  fsr := by simp [State.resetFor]
  offer := Nat.two_pow_pos 61
  resp := fun _ hp => by cases hp

/-- Settles O56: the default build is one of the builds. -/
theorem resetMeetsTheInvariant : Obligations.ResetMeetsTheInvariant := State.resetFor_inv Config.standard

/-! ## The reset signal (O9) -/

/-- A step whose next move is the reset signal resets the block. -/
theorem step_reset {s : State} {rest : List Input} (h : s.inputs = .reset :: rest) :
    step s = resetSignal (s.setInputs rest) := by
  simp only [step, h]

/-- The moves to come have no part in what reset does to the block. -/
theorem resetBlock_setInputs (s : State) (l : List Input) : resetBlock (s.setInputs l) = (resetBlock s).setInputs l := rfl

/-- Settles O9: the signal and SRST make the same reset block, and differ in the moves left and the response. -/
theorem resetSignalEqualsSrst : Obligations.ResetSignalEqualsSrst := by
  intro s rest h
  have hsignal : step s = .next (((resetBlock s).setInputs rest).setResp none) := by
    rw [step_reset h, resetSignal, resetBlock_setInputs]
  exact ⟨_, _, hsignal, exec_srst_eq_next.mpr rfl, rfl, rfl, rfl, rfl, rfl, rfl, rfl, rfl⟩

/-! ## Waiting (O11) -/

/-- Settles O11: a step takes the first pending move, and here there is none. -/
theorem blockWaitsForInput : Obligations.BlockWaitsForInput := by
  intro s h
  simp only [step, h]

end Sys2Proof.Machine
